-- ==== Sys2Proof/Word.lean ====
section
/-! DEFINITION. The fixed widths of the core (00_scope.md R9): 16-bit words, which are also the addresses, and
8-bit bytes, which are the unit of addressing, the immediates and the signal codes. -/

namespace Sys2Proof

/-- A register's contents, an instruction word, an address (R9). -/
abbrev Word := BitVec 16

/-- A byte of memory, an immediate, a signal code, an opcode, an argument byte (R9). -/
abbrev Byte := BitVec 8

end Sys2Proof
end

