-- ==== Sys2Proof/Machine/Bits.lean ====
section
/-! DEFINITION. Bit fields, byte order, zero extension and the arithmetic unit (00_scope.md R15, 42_add.md R150). -/

namespace Sys2Proof.Machine

/-- `a +16 b`: unsigned 16-bit addition with wrap-around, the machine's only arithmetic operation (R15, R150). -/
def add16 (a b : Word) : Word := a + b

/-- `a -16 b`, the implicit downward update of `SP` (R15, R150). -/
def sub16 (a b : Word) : Word := a - b

/-- `zext_16(v)` (R15, R90). -/
def zext16 (v : Byte) : Word := v.setWidth 16

/-- `w[7:0]` (R83). -/
def lowByte (w : Word) : Byte := w.extractLsb' 0 8

/-- `w[15:8]` (R83). -/
def highByte (w : Word) : Byte := w.extractLsb' 8 8

/-- `hi || lo`: the little-endian word of two consecutive bytes, `lo` at the lower address (R53, R56, R81). -/
def joinBytes (hi lo : Byte) : Word := hi ++ lo

/-- `arg[7:4]` as an 8-bit number, the code of the first register of format RR (R83, R89). -/
def highNibble (arg : Byte) : Byte := (arg.extractLsb' 4 4).setWidth 8

/-- `arg[3:0]` as an 8-bit number, the code of the second register of format RR (R83, R89). -/
def lowNibble (arg : Byte) : Byte := (arg.extractLsb' 0 4).setWidth 8

end Sys2Proof.Machine
end

