-- ==== Sys2Proof/Config.lean ====
section
/-! DEFINITION. The parameters of the core (00_scope.md section 4) and the types they are made of: the register
roles, the register file, the error values, the signal handlers as plain data, and the one free value of the model,
the behaviour of a handler the spec does not give. -/

namespace Sys2Proof

/-- The eight register roles of REGSET, in the source's order (10_state.md R22; the extended registers of R40 are
not in the set, log 7). -/
inductive Reg where
  | a | b | c | m | sp | pc | bp | flags
  deriving DecidableEq, Repr

/-- The register file: one 16-bit value per role (R21). -/
structure Regs where
  a     : Word
  b     : Word
  c     : Word
  m     : Word
  sp    : Word
  pc    : Word
  bp    : Word
  flags : Word
  deriving DecidableEq, Repr

/-- The closed error type (60_exceptions.md R180). The payload of a memory fault is a natural number in
`0 .. 0x10000`, not a 16-bit value (20_memory.md R60). -/
inductive Error where
  | memoryFault (addr : Nat)
  | unknownOpcode (byte : Byte)
  | unknownRegister (code : Byte)
  | unknownSignal (code : Byte)
  | stackFault
  deriving DecidableEq, Repr

/-- `W16_PARTIAL`: what a failed 16-bit write leaves in memory when only its low byte is in range (R14, U1). -/
inductive W16Partial where
  /-- The value `none`: nothing is written. -/
  | nothing
  /-- The value `low_byte`: the low byte is written. -/
  | lowByte
  deriving DecidableEq, Repr

/-- One thing a signal handler may do (43_signal.md R162): read and write registers, bytes of memory and the halt
flag, and use the primitives `MemRead`, `MemWrite`, `copy`, `Push16` and `Pop16`. -/
inductive HandlerAct where
  /-- `x[r] <- v` -/
  | setReg (r : Reg) (v : Word)
  /-- `x[dst] <- x[src]` -/
  | moveReg (dst src : Reg)
  /-- `x[dst] <- x[dst] +16 v` -/
  | addImm (dst : Reg) (v : Word)
  /-- `halt <- b` -/
  | setHalt (b : Bool)
  /-- `x[dst] <- zext_16(MemRead(addr, 1))` -/
  | readByte (dst : Reg) (addr : Word)
  /-- `x[dst] <- MemRead(addr, 2)` -/
  | readWord (dst : Reg) (addr : Word)
  /-- `MemWrite(addr, 1, v)` -/
  | writeByte (addr : Word) (v : Byte)
  /-- `MemWrite(addr, 2, v)` -/
  | writeWord (addr : Word) (v : Word)
  /-- `copy(src, dst, n)` -/
  | copy (src dst : Word) (n : Nat)
  /-- `Push16(x[r])` -/
  | push (r : Reg)
  /-- `x[r] <- Pop16()` -/
  | pop (r : Reg)
  deriving DecidableEq, Repr

/-- One act of a handler and what the handler does when the act's primitive fails: pass the failure on as its own,
or go on (R162: "which may pass them on as its own failure or not"). -/
structure HandlerStep where
  act : HandlerAct
  passOn : Bool
  deriving DecidableEq, Repr

/-- A handler's behaviour from one triple `(x, mem, halt)`: its acts in order and the result it reports, `none` for
`ok` and `some e` for `fail(e)` (R8, R162). -/
structure HandlerScript where
  acts : List HandlerStep
  result : Option Error
  deriving DecidableEq, Repr, Inhabited

/-- A signal handler as plain data (R162). DESIGN CHOICE, safe: log 3. -/
inductive Handler where
  /-- A handler whose behaviour is given. -/
  | script (body : HandlerScript)
  /-- A host function whose behaviour is not given (U6): it answers with any script, `Config.hostHandler`. -/
  | host (id : Nat)
  deriving DecidableEq, Repr

/-- The parameters of the core (R10, R11, R13, R14), fixed from reset to the end of a run. -/
structure Params where
  /-- `MEM_SIZE`, the number of bytes of memory (R10). -/
  memSize : Nat
  /-- `REGCODE`: the role at position `n` has code `n` (R11, R22). -/
  regCode : List Reg
  /-- `W16_PARTIAL` (R14). -/
  w16Partial : W16Partial
  /-- `SIGTABLE`: the signal codes that are bound, each with its handler (R13, R161). -/
  sigTable : List (Byte × Handler)
  deriving DecidableEq, Repr

/-- FREE VALUE (log 4). What the host function `id` does when it is called for the `call`-th time with the
registers `x`, the memory `mem` and the halt flag `halt`: nothing is known of it (U6: "the post-state registers,
memory, halt flag and result are arbitrary"). -/
opaque Config.hostHandler (call id : Nat) (x : Regs) (mem : List Host.Cell) (halt : Bool) : HandlerScript

end Sys2Proof
end

