-- ==== Sys2Proof/Syntax.lean ====
section
/-! DEFINITION. The decoded instructions: the closed type `Operation` with exactly seven variants
(30_encoding.md R99), one per row of the opcode table (R84). -/

namespace Sys2Proof

/-- A decoded instruction (R99): register operands are roles, immediates and codes are 8-bit values. -/
inductive Instr where
  /-- `Nop` (R133) -/
  | nop
  /-- `Push imm8` (R134) -/
  | push (v : Byte)
  /-- `PopRegister r` (R135) -/
  | popRegister (r : Reg)
  /-- `PushRegister r` (R136) -/
  | pushRegister (r : Reg)
  /-- `AddRegister r1, r2` (R152) -/
  | addRegister (r1 r2 : Reg)
  /-- `Signal code` (R160) -/
  | signal (code : Byte)
  /-- `AddStack` (R151) -/
  | addStack
  deriving DecidableEq, Repr

end Sys2Proof
end

