-- ==== Sys2Proof/WellFormed.lean ====
section
/-! DEFINITION. When the parameters are ones the spec allows, and when an instruction can be encoded with them. -/

namespace Sys2Proof

/-- The register operands of an instruction, first operand first (30_encoding.md R82, R99). -/
def Instr.regOperands : Instr → List Reg
  | .nop => []
  | .push _ => []
  | .popRegister r => [r]
  | .pushRegister r => [r]
  | .addRegister r1 r2 => [r1, r2]
  | .signal _ => []
  | .addStack => []

/-- A register code table is well formed when it gives each of the eight roles one of the codes `0 .. 7`
(10_state.md R22: "the index mapping is total and bijective"). -/
abbrev RegCode.WellFormed (rc : List Reg) : Prop := rc.length = 8 ∧ rc.Nodup

/-- The parameters the spec allows: `MEM_SIZE` in `0 .. 65536` (R10), a bijective `REGCODE` (R22), and a signal
table that binds each code at most once (43_signal.md R161: a partial map). -/
abbrev Params.WellFormed (p : Params) : Prop :=
  p.memSize ≤ 65536 ∧ RegCode.WellFormed p.regCode ∧ (p.sigTable.map (·.1)).Nodup

/-- An instruction is well formed for a register code table when the table has a code for every register it
names. The widths of immediates and codes are in their types. -/
abbrev Instr.WellFormed (rc : List Reg) (i : Instr) : Prop := ∀ r ∈ i.regOperands, r ∈ rc

end Sys2Proof
end

