-- ==== Sys2Proof/Machine/Params.lean ====
section
/-! DEFINITION. The values this spec takes for the parameters and the two reset constants (00_scope.md section 4). -/

namespace Sys2Proof.Machine

/-- `MEM_SIZE = 8192` (R10; D11, log 5). -/
def defaultMemSize : Nat := 8192

/-- `REGCODE`: `A=0, B=1, C=2, M=3, SP=4, PC=5, BP=6, FLAGS=7` (R11, R22; D1, log 6). -/
def defaultRegCode : List Reg := [.a, .b, .c, .m, .sp, .pc, .bp, .flags]

/-- The conventional halt handler: sets the halt flag and returns success (43_signal.md R163). -/
def haltHandler : Handler := .script ⟨[⟨.setHalt true, true⟩], none⟩

/-- `HALT_CODE`, the code hosts conventionally bind to the halt handler (R163). -/
def haltCode : Byte := 0x09

/-- DESIGN CHOICE (log 2): the table at `State.reset` binds the halt handler to `0x09` and nothing else, the
least a host installs (70_reset_and_hazards.md R212) and the table the test vectors assume. -/
def defaultSigTable : List (Byte × Handler) := [(haltCode, haltHandler)]

/-- The parameters with the values this spec takes (R10 to R14). -/
def defaultParams : Params where
  memSize := defaultMemSize
  regCode := defaultRegCode
  w16Partial := .nothing
  sigTable := defaultSigTable

/-- `SP_RESET` (R12). -/
def spReset : Word := 0x1000

/-- `PC_RESET` (R12). -/
def pcReset : Word := 0x0000

/-- The register file after reset (R37, R210). -/
def resetRegs : Regs where
  a := 0
  b := 0
  c := 0
  m := 0
  sp := spReset
  pc := pcReset
  bp := 0
  flags := 0

end Sys2Proof.Machine
end

