-- ==== Sys2Proof/Decode.lean ====
section
/-! DEFINITION. The instruction decoder and its canonical inverse (30_encoding.md), and the register lookups
(10_state.md section 6). -/

namespace Sys2Proof

open Sys2Proof.Machine

/-- `opcode = w[7:0]` (R83). -/
def opcodeField (w : Word) : Byte := lowByte w

/-- `arg = w[15:8]` (R83). -/
def argField (w : Word) : Byte := highByte w

/-- `fromCode(c)` (R38): the role whose code is `c`, and `none` (`InvalidRegister`) for every other value. -/
def fromCode (rc : List Reg) (c : Byte) : Option Reg := rc[c.toNat]?

/-- The canonical name of a role (R22). -/
def Reg.name : Reg → String
  | .a => "A"
  | .b => "B"
  | .c => "C"
  | .m => "M"
  | .sp => "SP"
  | .pc => "PC"
  | .bp => "BP"
  | .flags => "FLAGS"

/-- `fromName(s)` (R39): case-sensitive match against the canonical names; the toolchain's lookup, which no
instruction uses. -/
def fromName (s : String) : Option Reg :=
  [Reg.a, .b, .c, .m, .sp, .pc, .bp, .flags].find? fun r => r.name == s

/-- The register lookup as the decoder reports it: `InvalidRegister` becomes `UnknownRegister(c)` (R38, C6). -/
def resolveReg (rc : List Reg) (c : Byte) : Except Error Reg :=
  match fromCode rc c with
  | some r => .ok r
  | none => .error (.unknownRegister c)

/-- Formats R: the whole argument byte is the register code (R88). -/
def decodeOneReg (rc : List Reg) (arg : Byte) (mk : Reg → Instr) : Except Error Instr :=
  match resolveReg rc arg with
  | .ok r => .ok (mk r)
  | .error e => .error e

/-- Format RR: the high nibble names the first register and is resolved first, the low nibble the second (R89). -/
def decodeTwoRegs (rc : List Reg) (arg : Byte) (mk : Reg → Reg → Instr) : Except Error Instr :=
  match resolveReg rc (highNibble arg) with
  | .error e => .error e
  | .ok r1 =>
    match resolveReg rc (lowNibble arg) with
    | .error e => .error e
    | .ok r2 => .ok (mk r1 r2)

/-- `decode(w)` (R85): the opcode is matched first (R86); the argument of formats N is ignored (R87). -/
def decode (rc : List Reg) (w : Word) : Except Error Instr :=
  if opcodeField w = 0x00 then .ok .nop
  else if opcodeField w = 0x01 then .ok (.push (argField w))
  else if opcodeField w = 0x02 then decodeOneReg rc (argField w) .popRegister
  else if opcodeField w = 0x03 then decodeOneReg rc (argField w) .pushRegister
  else if opcodeField w = 0x04 then decodeTwoRegs rc (argField w) .addRegister
  else if opcodeField w = 0x09 then .ok (.signal (argField w))
  else if opcodeField w = 0x0F then .ok .addStack
  else .error (.unknownOpcode (opcodeField w))

/-- The opcode of each instruction (R84). -/
def Instr.opcode : Instr → Byte
  | .nop => 0x00
  | .push _ => 0x01
  | .popRegister _ => 0x02
  | .pushRegister _ => 0x03
  | .addRegister _ _ => 0x04
  | .signal _ => 0x09
  | .addStack => 0x0F

/-- The code of a role, its position in the table (R22). -/
def regCodeOf (rc : List Reg) (r : Reg) : Nat := rc.idxOf r

/-- The argument byte of each instruction (R93): `0x00` for the two without operands (D4, log 11). -/
def Instr.argument (rc : List Reg) : Instr → Byte
  | .nop => 0x00
  | .push v => v
  | .popRegister r => BitVec.ofNat 8 (regCodeOf rc r)
  | .pushRegister r => BitVec.ofNat 8 (regCodeOf rc r)
  | .addRegister r1 r2 => BitVec.ofNat 4 (regCodeOf rc r1) ++ BitVec.ofNat 4 (regCodeOf rc r2)
  | .signal code => code
  | .addStack => 0x00

/-- `encode(op)` (R93): the argument in the high byte, the opcode in the low byte (R81). -/
def encode (rc : List Reg) (i : Instr) : Word := joinBytes (i.argument rc) i.opcode

/-- The decoder on an instruction given as the opcode table numbers its bits: bit 0 is the least significant bit of
the first byte stored, and bits 15 to 8 are the second byte (R81). The two bytes are laid out in the order they have
in memory and joined as a fetch joins them. -/
def decodeTableWord (nbits w : Nat) : Option Instr :=
  let first : Byte := BitVec.ofNat 8 (w % 2 ^ nbits)
  let second : Byte := BitVec.ofNat 8 (w % 2 ^ nbits / 256)
  (decode defaultRegCode (joinBytes second first)).toOption

end Sys2Proof
end

