-- ==== Sys2Proof/Machine/State.lean ====
section
/-! DEFINITION. The architectural state `(x, mem, halt, status, err)` (10_state.md R20) with the parameters of the
run, memory's canonical form, the state after reset, and the reasons a step can stop. -/

namespace Sys2Proof.Machine

/-- Memory (R34): the bytes that are not `0x00`, by rising address. An unlisted address reads `0x00`, the reset
value of every byte (R37). -/
abbrev Memory := List Host.Cell

/-- The canonical form: addresses strictly rising, and no entry equal to what an unlisted address reads as. -/
abbrev Memory.wf (m : Memory) : Prop :=
  m.Pairwise (fun c d => c.1 < d.1) ∧ ∀ c ∈ m, c.2 ≠ 0

/-- Every listed address exists: it is below `MEM_SIZE` (R34, R50). -/
abbrev Memory.within (size : Nat) (m : Memory) : Prop := ∀ c ∈ m, c.1 < size

/-- `status` (R30). -/
inductive Status where
  | running | halted | faulted
  deriving DecidableEq, Repr

/-- The state of the core (R20). -/
structure State where
  /-- `x`, the register file, the program counter and the stack pointer among its roles (R21). -/
  regs : Regs
  /-- `mem` (R34). -/
  mem : Memory
  /-- `halt` (R31). -/
  halt : Bool
  /-- `status` (R30). -/
  status : Status
  /-- `err`, the error of the step that made the core `Faulted`: the result of that step (R32). -/
  err : Option Error
  /-- The parameters, fixed from reset to the end of the run (R10 to R14); no step writes them (log 1). -/
  params : Params
  /-- The model's own: how many times a handler of unknown behaviour has been called (log 4). -/
  hostCalls : Nat
  deriving DecidableEq, Repr

/-- The machine right after reset with parameters `p` (R37, 70_reset_and_hazards.md R210). -/
def State.resetWith (p : Params) : State where
  regs := resetRegs
  mem := []
  halt := false
  status := .running
  err := none
  params := p
  hostCalls := 0

/-- The machine right after reset with the values this spec takes for the parameters. -/
def State.reset : State := State.resetWith defaultParams

/-- Why a step can stop without a next state. An error of R180 is not among these: taking it is a next state, with
`status = Faulted` (R117, R190). -/
inductive Fault where
  /-- Raised by `step` alone, in a state whose status is `Halted`: the spec gives it no step (R110, R193, U4). Safe:
  the model stops where nothing is specified. -/
  | stepWhileHalted
  /-- Raised by `step` alone, in a state whose status is `Faulted`: the spec gives it no step (R110, R192, U4). Safe:
  the model stops where nothing is specified. -/
  | stepWhileFaulted
  deriving DecidableEq, Repr

/-- Why an instruction can be refused. -/
inductive Refusal where
  /-- Raised by an arm of `exec` for an instruction that has no meaning yet; every instruction has one, so nothing
  raises it. Safe. -/
  | notModelled (mnemonic : String)
  deriving DecidableEq, Repr

/-- What a primitive that can change the state answers (R17): success with a value, or one error, and the state it
leaves in either case. -/
inductive Result (α : Type) where
  | ok (v : α) (s : State)
  | err (e : Error) (s : State)
  deriving DecidableEq, Repr

/-- The state a primitive leaves, whether it succeeded or failed. -/
def Result.state {α : Type} : Result α → State
  | .ok _ s => s
  | .err _ s => s

/-- The outcome of a step or of a meaning. -/
abbrev StepOutcome := Host.Outcome State Fault Refusal

end Sys2Proof.Machine
end

