-- ==== Sys2Proof/Machine/Ops.lean ====
section
/-! DEFINITION. The named operations over registers and memory, the stack primitives, taking an error, the phases of
a step around the instruction's own, and the host's memory helpers. -/

namespace Sys2Proof

/-- `get(Register)` (10_state.md R21). -/
def Regs.get (x : Regs) : Reg → Word
  | .a => x.a
  | .b => x.b
  | .c => x.c
  | .m => x.m
  | .sp => x.sp
  | .pc => x.pc
  | .bp => x.bp
  | .flags => x.flags

/-- `set(Register, u16)` (R21): replaces all 16 bits; no register is hardwired or read-only. -/
def Regs.set (x : Regs) (r : Reg) (v : Word) : Regs :=
  match r with
  | .a => { x with a := v }
  | .b => { x with b := v }
  | .c => { x with c := v }
  | .m => { x with m := v }
  | .sp => { x with sp := v }
  | .pc => { x with pc := v }
  | .bp => { x with bp := v }
  | .flags => { x with flags := v }

end Sys2Proof

namespace Sys2Proof.Machine

/-- `mem[a]`: the listed byte, or `0x00` where none is listed (R34, R37). -/
def Memory.read (m : Memory) (a : Nat) : Byte :=
  match m with
  | [] => 0
  | c :: rest => if c.1 = a then c.2 else Memory.read rest a

/-- A cell put into a list of cells at its place by address. -/
def Memory.insert (c : Host.Cell) (m : Memory) : Memory :=
  match m with
  | [] => [c]
  | d :: rest => if c.1 < d.1 then c :: d :: rest else d :: Memory.insert c rest

/-- Memory without the cells at address `a`. -/
def Memory.erase (m : Memory) (a : Nat) : Memory := m.filter fun c => c.1 ≠ a

/-- `mem[a] <- b`, keeping the canonical form. -/
def Memory.write (m : Memory) (a : Nat) (b : Byte) : Memory :=
  if b = 0 then Memory.erase m a else Memory.insert (a, b) (Memory.erase m a)

/-- `x[r]` (R16, R21). -/
def State.readReg (s : State) (r : Reg) : Word := s.regs.get r

/-- `x[r] <- v` (R16, R21). -/
def State.writeReg (s : State) (r : Reg) (v : Word) : State := { s with regs := s.regs.set r v }

/-- The state with its memory replaced. -/
def State.setMem (s : State) (m : Memory) : State := { s with mem := m }

/-- `halt <- b` (R31): used by handlers alone. -/
def State.setHalt (s : State) (b : Bool) : State := { s with halt := b }

/-- `raise e` (R16, R117, R190): `status <- Faulted; err <- e`, and nothing else; what the step did before stays
(R191). The step's result is then `e`, read from `err`. -/
def State.raise (s : State) (e : Error) : State := { s with status := .faulted, err := some e }

/-- `MemRead(a, 1)` (R51). -/
def State.memRead8 (s : State) (a : Nat) : Except Error Byte :=
  if a < s.params.memSize then .ok (Memory.read s.mem a) else .error (.memoryFault a)

/-- `MemWrite(a, 1, b)` (R52). -/
def State.memWrite8 (s : State) (a : Nat) (b : Byte) : Result Unit :=
  if a < s.params.memSize then .ok () (s.setMem (Memory.write s.mem a b)) else .err (.memoryFault a) s

/-- `MemRead(a, 2)` (R53): little-endian; `a + 1` does not wrap (R59); the payload of a failure is the first byte
out of range (R60). -/
def State.memRead16 (s : State) (a : Nat) : Except Error Word :=
  if a < s.params.memSize then
    if a + 1 < s.params.memSize then .ok (joinBytes (Memory.read s.mem (a + 1)) (Memory.read s.mem a))
    else .error (.memoryFault (a + 1))
  else .error (.memoryFault a)

/-- What a 16-bit write leaves whose low byte is in range and whose high byte is not: `W16_PARTIAL` (R14, R54, U1). -/
def State.partialWrite (s : State) (a : Nat) (v : Word) : State :=
  match s.params.w16Partial with
  | .nothing => s
  | .lowByte => s.setMem (Memory.write s.mem a (lowByte v))

/-- `MemWrite(a, 2, v)` (R54): checked as a whole, then the low byte and the high byte are written. -/
def State.memWrite16 (s : State) (a : Nat) (v : Word) : Result Unit :=
  if a < s.params.memSize then
    if a + 1 < s.params.memSize then
      .ok () (s.setMem (Memory.write (Memory.write s.mem a (lowByte v)) (a + 1) (highByte v)))
    else .err (.memoryFault (a + 1)) (s.partialWrite a v)
  else .err (.memoryFault a) s

/-- `v <- P ?` for a primitive that changes the state (R16): go on after success, stop at an error. -/
def Result.andThen {α β : Type} (r : Result α) (f : α → State → Result β) : Result β :=
  match r with
  | .ok v s => f v s
  | .err e s => .err e s

/-- How a meaning ends: a success is the next state, an error is raised in the state it left (R16, R117). -/
def Result.settle (r : Result Unit) : StepOutcome :=
  match r with
  | .ok _ s => .next s
  | .err e s => .next (s.raise e)

/-- The address a push writes: `SP` itself (41_nop_and_stack.md R137). -/
def State.pushAddr (s : State) : Word := s.readReg .sp

/-- The address a pop reads: `SP -16 2` (R137). -/
def State.popAddr (s : State) : Word := sub16 (s.readReg .sp) 2

/-- `Push16(v)` (R130): write at `SP`, then `SP + 2`; a memory fault becomes `StackFault` and leaves `SP`. -/
def State.push16 (s : State) (v : Word) : Result Unit :=
  match s.memWrite16 s.pushAddr.toNat v with
  | .ok _ t => .ok () (t.writeReg .sp (add16 (t.readReg .sp) 2))
  | .err _ t => .err .stackFault t

/-- `Pop16()` (R131): `SP - 2` first, then read at the new `SP`; a failed read restores `SP`. -/
def State.pop16 (s : State) : Result Word :=
  let lowered := s.writeReg .sp s.popAddr
  match lowered.memRead16 (lowered.readReg .sp).toNat with
  | .ok v => .ok v lowered
  | .error _ => .err .stackFault (lowered.writeReg .sp (s.readReg .sp))

/-- Phase 2 of a step (40_step_sequencing.md R112): the word at `PC`; the error carries the fetch address whichever
byte is out of range (C7). -/
def State.fetch (s : State) : Except Error Word :=
  match s.memRead16 (s.readReg .pc).toNat with
  | .ok w => .ok w
  | .error _ => .error (.memoryFault (s.readReg .pc).toNat)

/-- Phase 3 (R113): `x[PC] <- x[PC] +16 2`, whatever the instruction. -/
def State.advancePc (s : State) : State := s.writeReg .pc (add16 (s.readReg .pc) 2)

/-- Phase 4 (R114): the decoder with the register codes of this core. -/
def State.decodeWord (s : State) (w : Word) : Except Error Instr := decode s.params.regCode w

/-- `copy(src, dst, n)` (R61): `n` single-byte read and write pairs by ascending address, stopping at the first
failure; the bytes copied before it stay (D20, log 18). -/
def State.copy (src dst : Nat) (n : Nat) (s : State) : Result Unit :=
  match n with
  | 0 => .ok () s
  | n + 1 =>
    match s.memRead8 src with
    | .error e => .err e s
    | .ok b => (s.memWrite8 dst b).andThen fun _ t => State.copy (src + 1) (dst + 1) n t

/-- The writes of `loadBulk`, by ascending address, stopping at the first failure (R62). DESIGN CHOICE (log 30): with
no bytes it makes no write and so succeeds wherever `base` is, also beyond `MEM_SIZE`. -/
def State.writeBytes (bytes : List Byte) (base : Nat) (s : State) : Result Unit :=
  match bytes with
  | [] => .ok () s
  | b :: rest => (s.memWrite8 base b).andThen fun _ t => State.writeBytes rest (base + 1) t

/-- `loadBulk(bytes, baseAddr)` (R62): the host's way to place a program; answers the number of bytes written and
of the whole instructions they make. An empty load answers `(0, 0)` at every base (log 30). -/
def State.loadBulk (bytes : List Byte) (base : Nat) (s : State) : Result (Nat × Nat) :=
  (State.writeBytes bytes base s).andThen fun _ t => .ok (bytes.length, bytes.length / 2) t

/-- The host's `reset` input (70_reset_and_hazards.md R211): from any state, the state of R210; the parameters are the
host's and are not touched (log 19). -/
def State.hostReset (s : State) : State :=
  { State.resetWith s.params with hostCalls := s.hostCalls }

end Sys2Proof.Machine
end

