-- ==== Sys2Proof/Machine/Operands.lean ====
section
/-! DEFINITION. The operand forms of the four formats (30_encoding.md R82, R90) and the access tables: which
registers an instruction writes by itself (10_state.md R23) and where it stores (20_memory.md R69). -/

namespace Sys2Proof.Machine

/-- Format I of `Push`: the immediate, zero-extended (R90). -/
def immOperand (v : Byte) : Word := zext16 v

/-- Formats R and RR, a register read: any role, at its value at this point of the step (R23, R122). -/
def State.regOperand (s : State) (r : Reg) : Word := s.readReg r

/-- Formats R and RR, a register written: any role, an ordinary register write (R23, R123). -/
def State.writeOperand (s : State) (r : Reg) (v : Word) : State := s.writeReg r v

/-- The address `AddStack` stores its sum at: `SP -16 4`, where its second pop reads (42_add.md R151, R153). -/
def State.sumAddr (s : State) : Word := sub16 s.popAddr 2

/-- The registers an instruction writes in phase 5 (R23). What `Signal`'s handler writes is the handler's. -/
def destsOf : Instr → List Reg
  | .nop => []
  | .push _ => [.sp]
  | .popRegister r => [.sp, r]
  | .pushRegister _ => [.sp]
  | .addRegister r1 _ => [r1]
  | .signal _ => []
  | .addStack => [.sp]

/-- The address of the 16-bit word an instruction stores in phase 5, if it stores one (R69). What `Signal`'s handler
stores is the handler's. -/
def State.storeAddr (s : State) : Instr → Option Word
  | .nop => none
  | .push _ => some s.pushAddr
  | .popRegister _ => none
  | .pushRegister _ => some s.pushAddr
  | .addRegister _ _ => none
  | .signal _ => none
  | .addStack => some s.sumAddr

end Sys2Proof.Machine
end

