-- ==== Sys2Proof/Machine/Add.lean ====
section
/-! DEFINITION. The add instructions (42_add.md): phase 5 of each. -/

namespace Sys2Proof.Machine

/-- `AddStack` (R151): two pops, the most recently pushed word first, then a push of the wrapped sum. -/
def execAddStack (s : State) : StepOutcome :=
  (s.pop16.andThen fun a t => t.pop16.andThen fun b u => u.push16 (add16 a b)).settle

/-- `AddRegister r1, r2` (R152): both registers are read, then `r1` is written. -/
def execAddRegister (r1 r2 : Reg) (s : State) : StepOutcome :=
  .next (s.writeOperand r1 (add16 (s.regOperand r1) (s.regOperand r2)))

end Sys2Proof.Machine
end

