-- ==== Sys2Proof/Machine/Handlers.lean ====
section
/-! DEFINITION. What a signal handler does to the machine (43_signal.md R161, R162): it acts on the registers, the
memory and the halt flag, through the primitives, and answers `ok` or `fail(e)`. It has no act that reaches `status`,
`err` or the parameters. -/

namespace Sys2Proof.Machine

/-- The answer of a read that changes no state, written to a register on success. -/
def State.loadReg (s : State) (dst : Reg) (r : Except Error Word) : Result Unit :=
  match r with
  | .ok v => .ok () (s.writeReg dst v)
  | .error e => .err e s

/-- One act of a handler (R162). -/
def State.runAct (s : State) : HandlerAct → Result Unit
  | .setReg r v => .ok () (s.writeReg r v)
  | .moveReg dst src => .ok () (s.writeReg dst (s.readReg src))
  | .addImm dst v => .ok () (s.writeReg dst (add16 (s.readReg dst) v))
  | .setHalt b => .ok () (s.setHalt b)
  | .readByte dst addr => s.loadReg dst ((s.memRead8 addr.toNat).map zext16)
  | .readWord dst addr => s.loadReg dst (s.memRead16 addr.toNat)
  | .writeByte addr v => s.memWrite8 addr.toNat v
  | .writeWord addr v => s.memWrite16 addr.toNat v
  | .copy src dst n => State.copy src.toNat dst.toNat n s
  | .push r => s.push16 (s.readReg r)
  | .pop r => s.pop16.andThen fun v t => .ok () (t.writeReg r v)

/-- The acts of a handler in order: a failing act ends the handler with that failure, or the handler goes on (R162). -/
def State.runActs (acts : List HandlerStep) (s : State) : Result Unit :=
  match acts with
  | [] => .ok () s
  | h :: rest =>
    match s.runAct h.act with
    | .ok _ t => State.runActs rest t
    | .err e t => if h.passOn then .err e t else State.runActs rest t

/-- A handler's script: its acts, then the result it reports (R162). What it changed stays, also when it fails (R164). -/
def State.runScript (s : State) (h : HandlerScript) : Result Unit :=
  (State.runActs h.acts s).andThen fun _ t =>
    match h.result with
    | none => .ok () t
    | some e => .err e t

/-- A call of a handler. One whose behaviour is not given answers with a free script, fresh at each call (U6; log 4). -/
def State.runHandler (s : State) : Handler → Result Unit
  | .script body => s.runScript body
  | .host id =>
    { s with hostCalls := s.hostCalls + 1 }.runScript (Config.hostHandler s.hostCalls id s.regs s.mem s.halt)

/-- `SIGTABLE(c)` (R161): `none` is `absent`. -/
def sigLookup (table : List (Byte × Handler)) (c : Byte) : Option Handler :=
  match table with
  | [] => none
  | b :: rest => if b.1 = c then some b.2 else sigLookup rest c

end Sys2Proof.Machine
end

