-- ==== Sys2Proof/Machine/Signal.lean ====
section
/-! DEFINITION. `Signal` (43_signal.md): phase 5. -/

namespace Sys2Proof.Machine

/-- `Signal code` (R160): an unbound code raises `UnknownSignal(code)`; a bound one calls its handler, whose changes
stay and whose failure is raised (R164). -/
def execSignal (code : Byte) (s : State) : StepOutcome :=
  match sigLookup s.params.sigTable code with
  | none => .next (s.raise (.unknownSignal code))
  | some h => (s.runHandler h).settle

end Sys2Proof.Machine
end

