-- ==== Sys2Proof/Machine/Stack.lean ====
section
/-! DEFINITION. `Nop` and the stack instructions (41_nop_and_stack.md): phase 5 of each. -/

namespace Sys2Proof.Machine

/-- `Nop` (R133): no effect. -/
def execNop (s : State) : StepOutcome := .next s

/-- `Push imm8` (R134): push of the zero-extended immediate. -/
def execPush (v : Byte) (s : State) : StepOutcome := (s.push16 (immOperand v)).settle

/-- `PopRegister r` (R135): pop, then the write of `r`, which comes last. -/
def execPopRegister (r : Reg) (s : State) : StepOutcome :=
  (s.pop16.andThen fun t u => .ok () (u.writeOperand r t)).settle

/-- `PushRegister r` (R136): `r` is read before `SP` moves. -/
def execPushRegister (r : Reg) (s : State) : StepOutcome := (s.push16 (s.regOperand r)).settle

end Sys2Proof.Machine
end

