-- ==== Sys2Proof/Machine/Dispatch.lean ====
section
/-! DEFINITION. Phase 5 of a step (40_step_sequencing.md R115): the rule of the decoded operation, one arm per
constructor, no default arm. -/

namespace Sys2Proof.Machine

def exec (i : Instr) (s : State) : Host.Outcome State Fault Refusal :=
  match i with
  | .nop => Sys2Proof.Machine.execNop s
  | .push v => Sys2Proof.Machine.execPush v s
  | .popRegister r => Sys2Proof.Machine.execPopRegister r s
  | .pushRegister r => Sys2Proof.Machine.execPushRegister r s
  | .addRegister r1 r2 => Sys2Proof.Machine.execAddRegister r1 r2 s
  | .signal code => Sys2Proof.Machine.execSignal code s
  | .addStack => Sys2Proof.Machine.execAddStack s

end Sys2Proof.Machine
end

