-- ==== Sys2Proof/Machine/Flags.lean ====
section
/-! DEFINITION. No instruction computes a flag: `FLAGS` is an ordinary register (10_state.md R29) and the adder
records no carry or overflow (42_add.md R150). The one bit the machine tests is the halt flag, at the commit of a step
(40_step_sequencing.md R116), and its status outputs are the cause code and payload (60_exceptions.md R187). -/

namespace Sys2Proof.Machine

/-- Phase 6 (R116), reached only where no phase raised an error, that is while the status is still `Running`:
`halt = 1` makes it `Halted`. -/
def State.commit (s : State) : State :=
  if s.status = .running ∧ s.halt = true then { s with status := .halted } else s

/-- The cause code of an error (R187; D14, log 21). -/
def errorCause : Error → Nat
  | .memoryFault _ => 1
  | .unknownOpcode _ => 2
  | .unknownRegister _ => 3
  | .unknownSignal _ => 4
  | .stackFault => 5

/-- The 17-bit payload beside the cause code (R187). -/
def errorPayload : Error → BitVec 17
  | .memoryFault a => BitVec.ofNat 17 a
  | .unknownOpcode b => b.setWidth 17
  | .unknownRegister c => c.setWidth 17
  | .unknownSignal c => c.setWidth 17
  | .stackFault => 0

/-- The status output: `0` for no error, else the cause code of `err` (R187). -/
def State.causeCode (s : State) : Nat :=
  match s.err with
  | none => 0
  | some e => errorCause e

end Sys2Proof.Machine
end

