-- ==== Sys2Proof/Machine/Phases.lean ====
section
/-! DEFINITION. The phases of a step in their order (40_step_sequencing.md R111 to R121): fetch, advance, decode,
dispatch, commit. -/

namespace Sys2Proof.Machine

/-- Phases 5 and 6 (R115, R116): the instruction, then the commit of what it left. -/
def State.execAndCommit (s : State) (i : Instr) : StepOutcome :=
  match exec i s with
  | .next t => .next t.commit
  | .fault r => .fault r
  | .refused r => .refused r

/-- The whole step of a `Running` core (R121). A fetch error is raised before the advance, a decode error after it
(R112, R113, R114). -/
def State.stepRunning (s : State) : StepOutcome :=
  match s.fetch with
  | .error e => .next (s.raise e)
  | .ok w =>
    match s.advancePc.decodeWord w with
    | .error e => .next (s.advancePc.raise e)
    | .ok i => s.advancePc.execAndCommit i

end Sys2Proof.Machine
end

