-- ==== Sys2Proof/Machine/Step.lean ====
section
/-! DEFINITION. One step (40_step_sequencing.md R110, R121), and an instruction placed where the next step fetches. -/

namespace Sys2Proof.Machine

/-- One step (R110, R121): defined only while `Running`. -/
def step (s : State) : Host.Outcome State Fault Refusal :=
  match s.status with
  | .running => s.stepRunning
  | .halted => .fault .stepWhileHalted
  | .faulted => .fault .stepWhileFaulted

/-- The state with an instruction, its bits numbered as the opcode table numbers them, stored where the next step
fetches: the first byte at `PC`, the second at `PC + 1` (30_encoding.md R81). -/
def State.withFetchWord (s : State) (nbits w : Nat) : State :=
  let a := (s.readReg .pc).toNat
  let first : Byte := BitVec.ofNat 8 (w % 2 ^ nbits)
  let second : Byte := BitVec.ofNat 8 (w % 2 ^ nbits / 256)
  s.setMem (Memory.write (Memory.write s.mem a first) (a + 1) second)

end Sys2Proof.Machine
end

