-- ==== Sys2Proof/Machine/Run.lean ====
section
/-! DEFINITION. What the host does around the steps: the boot order, the driving loop and how a run ends
(40_step_sequencing.md R119, R124; 70_reset_and_hazards.md R212). -/

namespace Sys2Proof.Machine

/-- What the host does before the first step (70_reset_and_hazards.md R212): reset with the parameters it has fixed,
`SIGTABLE` among them, then load the program; it must not run after a failed load. -/
def boot (p : Params) (bytes : List Byte) (base : Nat) : Result (Nat × Nat) :=
  State.loadBulk bytes base (State.resetWith p)

/-- The driving loop with a ceiling of `n` steps, which is the host's own (R119, R124): steps while `Running`, and
stops in the first state that has no step. -/
def State.drive (n : Nat) (s : State) : State :=
  match n with
  | 0 => s
  | n + 1 =>
    match step s with
    | .next t => State.drive n t
    | .fault _ => s
    | .refused _ => s

/-- What a run has come to (R124). -/
inductive RunEnd where
  /-- `Halted`: the run ended successfully. -/
  | success
  /-- `Faulted`: the run ended in failure; the final error is `err`. -/
  | failure (e : Option Error)
  /-- `Running`: the run has not ended. -/
  | going
  deriving DecidableEq, Repr

/-- How the run stands in a state (R124). -/
def State.runEnd (s : State) : RunEnd :=
  match s.status with
  | .halted => .success
  | .faulted => .failure s.err
  | .running => .going

end Sys2Proof.Machine
end

