-- ==== Sys2Proof/Safety.lean ====
section
/-! DEFINITION. The invariants of the machine, what a safe state is, and the words the frames are stated in. -/

namespace Sys2Proof.Machine

/-- The invariants of the control state (10_state.md R33). -/
abbrev State.ControlInv (s : State) : Prop :=
  (s.status = .running → s.halt = false ∧ s.err = none) ∧
  (s.status = .halted → s.halt = true ∧ s.err = none) ∧
  (s.status = .faulted ↔ s.err ≠ none)

/-- Memory is in canonical form and lists no address at or beyond `MEM_SIZE` (R34, R50). -/
abbrev State.MemInv (s : State) : Prop := Memory.wf s.mem ∧ Memory.within s.params.memSize s.mem

/-- The machine's invariant: parameters the spec allows, memory in its form, the control state of R33. -/
abbrev State.Inv (s : State) : Prop := s.params.WellFormed ∧ s.MemInv ∧ s.ControlInv

/-- A safe state: no step has ended in an error (60_exceptions.md R190). -/
abbrev State.Safe (s : State) : Prop := s.status ≠ .faulted

/-- Every register but those listed holds what it held. -/
def State.SameRegsExcept (rs : List Reg) (s t : State) : Prop := ∀ r, r ∉ rs → t.readReg r = s.readReg r

/-- Every byte of memory but those at the listed addresses reads as it read. -/
def State.SameMemExcept (bytes : List Nat) (s t : State) : Prop :=
  ∀ a, a ∉ bytes → Memory.read t.mem a = Memory.read s.mem a

/-- The halt flag, the status, the error, the parameters and the model's own counter are as they were. -/
def State.SameControl (s t : State) : Prop :=
  t.halt = s.halt ∧ t.status = s.status ∧ t.err = s.err ∧ t.params = s.params ∧ t.hostCalls = s.hostCalls

/-- What a step's raise leaves beside the control state: halt flag, parameters and counter as they were, and the error
recorded (40_step_sequencing.md R117). -/
def State.Raised (e : Error) (s t : State) : Prop :=
  t.status = .faulted ∧ t.err = some e ∧ t.halt = s.halt ∧ t.params = s.params ∧ t.hostCalls = s.hostCalls

/-- The little-endian word in memory at address `a` (20_memory.md R53). -/
def State.wordAt (s : State) (a : Nat) : Word := joinBytes (Memory.read s.mem (a + 1)) (Memory.read s.mem a)

end Sys2Proof.Machine
end

