-- ==== Sys2Proof/Certificates/Slice0/Obligations.lean ====
section
/-! DEFINITION. The statements about the machine, for the provers. Each docstring names the rules of spec/ it rests
on; the words of the frames (`SameRegsExcept`, `SameMemExcept`, `SameControl`) are Safety.lean's. -/

open Sys2Proof Sys2Proof.Machine

/-! ### The decoder -/

/-- R94. Decoding the encoding of an instruction gives it back, with every operand at every value, for every
bijective register code table; and for any table of at most sixteen roles, for the instructions whose registers it
lists. -/
def Obligations.DecodeOfEncodeIsTheInstruction : Prop :=
  (∀ rc : List Reg, RegCode.WellFormed rc → ∀ i : Instr, decode rc (encode rc i) = .ok i) ∧
  (∀ rc : List Reg, rc.length ≤ 16 → ∀ i : Instr, i.WellFormed rc → decode rc (encode rc i) = .ok i)

/-- The word of each instruction, by the shifts and ors of the encoding table (R93). The zero argument byte of the two
instructions without operands is the spec's decision D4 (log 11). -/
def Obligations.EncodeGivesTheWordsOfTheTable : Prop :=
  ∀ rc : List Reg, RegCode.WellFormed rc → ∀ (v : Byte) (r r1 r2 : Reg),
    encode rc .nop = 0x0000 ∧
    encode rc (.push v) = (v.setWidth 16 <<< 8) ||| 0x01 ∧
    encode rc (.popRegister r) = (BitVec.ofNat 16 (regCodeOf rc r) <<< 8) ||| 0x02 ∧
    encode rc (.pushRegister r) = (BitVec.ofNat 16 (regCodeOf rc r) <<< 8) ||| 0x03 ∧
    encode rc (.addRegister r1 r2) =
      (BitVec.ofNat 16 (regCodeOf rc r1) <<< 12) ||| (BitVec.ofNat 16 (regCodeOf rc r2) <<< 8) ||| 0x04 ∧
    encode rc (.signal v) = (v.setWidth 16 <<< 8) ||| 0x09 ∧
    encode rc .addStack = 0x000F

/-- R83, R85, R86. Decoding, by the number of the word: the low byte selects, the high byte is the operand. -/
def Obligations.DecodeFollowsTheOpcodeTable : Prop :=
  ∀ (rc : List Reg) (w : Word) (op arg : Nat), op = w.toNat % 256 → arg = w.toNat / 256 →
    (op = 0x00 → decode rc w = .ok .nop) ∧
    (op = 0x01 → decode rc w = .ok (.push (BitVec.ofNat 8 arg))) ∧
    (op = 0x02 → decode rc w = match rc[arg]? with
      | some r => .ok (.popRegister r)
      | none => .error (.unknownRegister (BitVec.ofNat 8 arg))) ∧
    (op = 0x03 → decode rc w = match rc[arg]? with
      | some r => .ok (.pushRegister r)
      | none => .error (.unknownRegister (BitVec.ofNat 8 arg))) ∧
    (op = 0x04 → decode rc w = match rc[arg / 16]? with
      | none => .error (.unknownRegister (BitVec.ofNat 8 (arg / 16)))
      | some r1 => match rc[arg % 16]? with
        | none => .error (.unknownRegister (BitVec.ofNat 8 (arg % 16)))
        | some r2 => .ok (.addRegister r1 r2)) ∧
    (op = 0x09 → decode rc w = .ok (.signal (BitVec.ofNat 8 arg))) ∧
    (op = 0x0F → decode rc w = .ok .addStack) ∧
    (op ∉ [0x00, 0x01, 0x02, 0x03, 0x04, 0x09, 0x0F] → decode rc w = .error (.unknownOpcode (BitVec.ofNat 8 op)))

/-- The role of each code, and none for a code of 8 or more (R38). The codes themselves are the spec's decision D1
("The numbers in the column `code` are not", R22; log 6). -/
def Obligations.FromCodeIsTheRegisterTable : Prop :=
  ∀ c : Byte,
    (c = 0 → fromCode defaultRegCode c = some .a) ∧ (c = 1 → fromCode defaultRegCode c = some .b) ∧
    (c = 2 → fromCode defaultRegCode c = some .c) ∧ (c = 3 → fromCode defaultRegCode c = some .m) ∧
    (c = 4 → fromCode defaultRegCode c = some .sp) ∧ (c = 5 → fromCode defaultRegCode c = some .pc) ∧
    (c = 6 → fromCode defaultRegCode c = some .bp) ∧ (c = 7 → fromCode defaultRegCode c = some .flags) ∧
    (8 ≤ c.toNat → fromCode defaultRegCode c = none)

/-- "the index mapping is total and bijective" (R22), for every table of the eight roles (log 6). Every role has a
code below 8 that `fromCode` turns back into it, and every code below 8 names a role. -/
def Obligations.RegisterCodesAreABijection : Prop :=
  ∀ rc : List Reg, RegCode.WellFormed rc →
    (∀ r, regCodeOf rc r < 8 ∧ fromCode rc (BitVec.ofNat 8 (regCodeOf rc r)) = some r) ∧
    (∀ c : Byte, c.toNat < 8 → ∃ r, fromCode rc c = some r ∧ regCodeOf rc r = c.toNat) ∧
    (∀ c : Byte, 8 ≤ c.toNat → fromCode rc c = none)

/-- R39. A name is found exactly when it is the canonical name of the role, letter for letter. -/
def Obligations.FromNameIsTheCanonicalName : Prop :=
  ∀ (name : String) (r : Reg), fromName name = some r ↔ name = r.name

/-- What the decoder rejects, and with which of its two errors (R86, R91): an opcode outside the table, whatever the
argument; a register code of 8 or more, the whole byte for one register (the spec's decision D3), the nibble for two
with the first one first (D5; log 12). -/
def Obligations.DecodeRejectsExactlyTheIllegalWords : Prop :=
  ∀ rc : List Reg, RegCode.WellFormed rc → ∀ (w : Word) (e : Error), decode rc w = .error e ↔
    (w.toNat % 256 ∉ [0x00, 0x01, 0x02, 0x03, 0x04, 0x09, 0x0F] ∧ e = .unknownOpcode (BitVec.ofNat 8 (w.toNat % 256))) ∨
    ((w.toNat % 256 = 0x02 ∨ w.toNat % 256 = 0x03) ∧ 8 ≤ w.toNat / 256 ∧
      e = .unknownRegister (BitVec.ofNat 8 (w.toNat / 256))) ∨
    (w.toNat % 256 = 0x04 ∧ 8 ≤ w.toNat / 4096 ∧ e = .unknownRegister (BitVec.ofNat 8 (w.toNat / 4096))) ∨
    (w.toNat % 256 = 0x04 ∧ w.toNat / 4096 < 8 ∧ 8 ≤ w.toNat / 256 % 16 ∧
      e = .unknownRegister (BitVec.ofNat 8 (w.toNat / 256 % 16)))

/-- Encoding what was decoded gives the word back exactly for the canonical words: all but a `Nop` or an
`AddStack` with an argument byte that is not zero (R95; the ignored byte is the spec's decision D4, log 11). -/
def Obligations.EncodeOfDecodeIsTheCanonicalWord : Prop :=
  ∀ rc : List Reg, RegCode.WellFormed rc → ∀ (w : Word) (i : Instr), decode rc w = .ok i →
    (encode rc i = w ↔ (w.toNat % 256 = 0x00 ∨ w.toNat % 256 = 0x0F → w.toNat / 256 = 0)) ∧
    (w.toNat % 256 = 0x00 → encode rc i = 0x0000) ∧ (w.toNat % 256 = 0x0F → encode rc i = 0x000F)

/-- Words written out from the encodings (R82, R84), and what they decode to (95_test_vectors.md, table E; the
register codes are the spec's decision D1, log 6). -/
def Obligations.SampleWordsDecode : Prop :=
  decode defaultRegCode 0x0000 = .ok .nop ∧ decode defaultRegCode 0xAB00 = .ok .nop ∧
  decode defaultRegCode 0x0A01 = .ok (.push 10) ∧ decode defaultRegCode 0x0402 = .ok (.popRegister .sp) ∧
  decode defaultRegCode 0x1002 = .error (.unknownRegister 0x10) ∧
  decode defaultRegCode 0x0203 = .ok (.pushRegister .c) ∧
  decode defaultRegCode 0x0104 = .ok (.addRegister .a .b) ∧
  decode defaultRegCode 0x8904 = .error (.unknownRegister 0x08) ∧
  decode defaultRegCode 0x0904 = .error (.unknownRegister 0x09) ∧
  decode defaultRegCode 0x2A09 = .ok (.signal 0x2A) ∧ decode defaultRegCode 0x7F0F = .ok .addStack ∧
  decode defaultRegCode 0x1208 = .error (.unknownOpcode 0x08)

/-! ### Arithmetic and memory -/

/-- The adder (R150): the sum modulo 65536, its laws, and the corner values of the rule; that signed reading gives the
same bits is the inference the rule marks as its own. -/
def Obligations.AdderWrapsModulo65536 : Prop :=
  (∀ a b : Word, (add16 a b).toNat = (a.toNat + b.toNat) % 65536) ∧
  (∀ a b : Word, add16 a b = add16 b a) ∧ (∀ a b c : Word, add16 (add16 a b) c = add16 a (add16 b c)) ∧
  (∀ a : Word, add16 a 0 = a) ∧
  (∀ a : Word, 0 < a.toNat → add16 a (BitVec.ofNat 16 (65536 - a.toNat)) = 0) ∧
  (∀ a b : Word, add16 a b = BitVec.ofInt 16 (a.toInt + b.toInt)) ∧
  add16 0x0000 0x0000 = 0x0000 ∧ add16 0xFFFF 0x0001 = 0x0000 ∧ add16 0xFFFF 0xFFFF = 0xFFFE ∧
  add16 0x8000 0x8000 = 0x0000 ∧ add16 0x7FFF 0x0001 = 0x8000

/-- R51, R52. A byte access below `MEM_SIZE` reads or writes exactly that byte; any other fails with its address and
changes nothing. -/
def Obligations.ByteAccessesAreBoundsChecked : Prop :=
  ∀ (s : State) (a : Nat) (b : Byte),
    (a < s.params.memSize → s.memRead8 a = .ok (Memory.read s.mem a)) ∧
    (s.params.memSize ≤ a → s.memRead8 a = .error (.memoryFault a)) ∧
    (a < s.params.memSize → ∃ t, s.memWrite8 a b = .ok () t ∧ Memory.read t.mem a = b ∧
      s.SameMemExcept [a] t ∧ t.regs = s.regs ∧ s.SameControl t) ∧
    (s.params.memSize ≤ a → s.memWrite8 a b = .err (.memoryFault a) s)

/-- R53. A 16-bit read is little-endian; a failed one reports the first byte out of range. -/
def Obligations.WordReadIsLittleEndian : Prop :=
  ∀ (s : State) (a : Nat),
    (a + 1 < s.params.memSize → ∃ w, s.memRead16 a = .ok w ∧
      w.toNat = (Memory.read s.mem a).toNat + 256 * (Memory.read s.mem (a + 1)).toNat) ∧
    (s.params.memSize ≤ a → s.memRead16 a = .error (.memoryFault a)) ∧
    (a < s.params.memSize → s.params.memSize ≤ a + 1 → s.memRead16 a = .error (.memoryFault (a + 1)))

/-- A 16-bit write stores the low byte at the lower address (R54); a failed one writes nothing with
`W16_PARTIAL = none`, the value the spec takes, and leaves the low byte with `low_byte` when that byte is in range
(the spec's decision D8, log 8). -/
def Obligations.WordWriteIsLittleEndianAndWhole : Prop :=
  ∀ (s : State) (a : Nat) (v : Word),
    (a + 1 < s.params.memSize → ∃ t, s.memWrite16 a v = .ok () t ∧
      (Memory.read t.mem a).toNat = v.toNat % 256 ∧ (Memory.read t.mem (a + 1)).toNat = v.toNat / 256 ∧
      s.SameMemExcept [a, a + 1] t ∧ t.regs = s.regs ∧ s.SameControl t) ∧
    (s.params.memSize ≤ a → s.memWrite16 a v = .err (.memoryFault a) s) ∧
    (a + 1 = s.params.memSize → s.params.w16Partial = .nothing → s.memWrite16 a v = .err (.memoryFault (a + 1)) s) ∧
    (a + 1 = s.params.memSize → s.params.w16Partial = .lowByte → ∃ t,
      s.memWrite16 a v = .err (.memoryFault (a + 1)) t ∧ (Memory.read t.mem a).toNat = v.toNat % 256 ∧
      s.SameMemExcept [a] t ∧ t.regs = s.regs ∧ s.SameControl t)

/-- R55. A read after a write, for words and for bytes, and the boundary at `MEM_SIZE`. -/
def Obligations.ReadAfterWriteGivesTheValueWritten : Prop :=
  ∀ s : State,
    (∀ (a : Nat) (v : Word), a + 1 < s.params.memSize → ∃ t, s.memWrite16 a v = .ok () t ∧ t.memRead16 a = .ok v) ∧
    (∀ (a : Nat) (b : Byte), a < s.params.memSize → ∃ t, s.memWrite8 a b = .ok () t ∧ t.memRead8 a = .ok b) ∧
    (∀ (a : Nat) (v : Word), a + 1 = s.params.memSize → ∃ e t, s.memWrite16 a v = .err e t) ∧
    (∀ b : Byte, ∃ e t, s.memWrite8 s.params.memSize b = .err e t) ∧ (∃ e, s.memRead8 s.params.memSize = .error e)

/-- No access wraps (R59, R60: the spec's decisions D6 and D23, log 14): a 16-bit access at `0xFFFF` fails whatever
`MEM_SIZE`, with `MemoryFault(0x10000)` when the byte `0xFFFF` exists. -/
def Obligations.NoAccessWrapsAtTheTop : Prop :=
  ∀ (s : State) (v : Word), s.params.WellFormed →
    (s.params.memSize = 65536 → s.memRead16 0xFFFF = .error (.memoryFault 0x10000) ∧
      ∃ t, s.memWrite16 0xFFFF v = .err (.memoryFault 0x10000) t) ∧
    (s.params.memSize < 65536 → s.memRead16 0xFFFF = .error (.memoryFault 0xFFFF) ∧
      s.memWrite16 0xFFFF v = .err (.memoryFault 0xFFFF) s)

/-- `copy` (R61; its ascending order is the spec's decision D20, log 18) moves bytes by ascending address until the
first read or write out of range: the bytes moved before it stay, and with `dst` above `src` an overlap repeats the
first `dst - src` bytes. -/
def Obligations.CopyMovesBytesInAscendingOrder : Prop :=
  ∀ (s : State) (src dst n k : Nat),
    k = min n (min (s.params.memSize - src) (s.params.memSize - dst)) →
    (State.copy src dst n s).state.regs = s.regs ∧ s.SameControl (State.copy src dst n s).state ∧
    (∀ i, i < k → Memory.read (State.copy src dst n s).state.mem (dst + i) =
      Memory.read s.mem (src + if dst ≤ src then i else i % (dst - src))) ∧
    (∀ a, (a < dst ∨ dst + k ≤ a) → Memory.read (State.copy src dst n s).state.mem a = Memory.read s.mem a) ∧
    (k = n → ∃ t, State.copy src dst n s = .ok () t) ∧
    (k < n → s.params.memSize ≤ src + k → ∃ t, State.copy src dst n s = .err (.memoryFault (src + k)) t) ∧
    (k < n → src + k < s.params.memSize → ∃ t, State.copy src dst n s = .err (.memoryFault (dst + k)) t)

/-- `loadBulk` (R62; what stays after a failure is the spec's decision D20, log 18) writes the bytes by ascending
address and answers their number and half of it; it succeeds exactly when every byte has an address in memory, and else
stops at the first address out of range, the bytes before it staying. That an empty load succeeds at a base beyond
`MEM_SIZE` too is the model's choice (log 30). -/
def Obligations.LoadBulkWritesTheImage : Prop :=
  ∀ (s : State) (bytes : List Byte) (base k : Nat), k = min bytes.length (s.params.memSize - base) →
    (State.loadBulk bytes base s).state.regs = s.regs ∧ s.SameControl (State.loadBulk bytes base s).state ∧
    (∀ i b, i < k → bytes[i]? = some b → Memory.read (State.loadBulk bytes base s).state.mem (base + i) = b) ∧
    (∀ a, (a < base ∨ base + k ≤ a) → Memory.read (State.loadBulk bytes base s).state.mem a = Memory.read s.mem a) ∧
    (k = bytes.length → ∃ t, State.loadBulk bytes base s = .ok (bytes.length, bytes.length / 2) t) ∧
    (k < bytes.length → ∃ t, State.loadBulk bytes base s = .err (.memoryFault (base + k)) t)

/-! ### Reset and the invariants -/

/-- R37. Every piece of state after reset, whatever parameters the host supplies. -/
def Obligations.ResetLeavesTheValuesOfTheTable : Prop :=
  ∀ p : Params, (∀ r, (State.resetWith p).readReg r = if r = .sp then 0x1000 else 0x0000) ∧
    (∀ a, Memory.read (State.resetWith p).mem a = 0x00) ∧ (State.resetWith p).halt = false ∧
    (State.resetWith p).status = .running ∧ (State.resetWith p).err = none ∧ (State.resetWith p).params = p

/-- The reset state has the values this model takes for the parameters: 8192 bytes (D11, log 5), the register codes
of D1 (log 6), no partial write (D8, log 8), and, the model's own choice, the halt handler bound to code `0x09` and
nothing else (log 2). The host's `reset` gives the reset state from any state, the parameters and the model's counter
kept (D17, log 19). -/
def Obligations.ResetTakesTheSpecsParameters : Prop :=
  State.reset = State.resetWith State.reset.params ∧ State.reset.params.memSize = 8192 ∧
  State.reset.params.regCode = [.a, .b, .c, .m, .sp, .pc, .bp, .flags] ∧
  State.reset.params.w16Partial = .nothing ∧
  (∀ c, sigLookup State.reset.params.sigTable c = if c = 0x09 then some haltHandler else none) ∧
  (∀ s : State, s.hostReset = { State.resetWith s.params with hostCalls := s.hostCalls })

/-- The invariant holds after reset, for all parameters the spec allows. -/
def Obligations.ResetMeetsTheInvariant : Prop :=
  State.reset.Inv ∧ ∀ p : Params, p.WellFormed → (State.resetWith p).Inv

/-- The machine's invariant (parameters the spec allows, memory in canonical form below `MEM_SIZE`, the control state
of R33) is kept by every step, whatever the handlers do. -/
def Obligations.StepKeepsTheInvariant : Prop :=
  ∀ s t : State, s.Inv → step s = .next t → t.Inv

/-- The invariants of the control state (R33, which the spec derives) hold after reset and are kept by every step;
and a faulted core can have its halt flag clear or set. -/
def Obligations.ControlStateKeepsItsInvariants : Prop :=
  State.reset.ControlInv ∧ (∀ s t : State, s.ControlInv → step s = .next t → t.ControlInv) ∧
  (∀ b : Bool, ∃ s t : State, s.ControlInv ∧ step s = .next t ∧ t.status = .faulted ∧ t.halt = b)

/-- The invariant holds all along a run of any length, from any state that meets it (R119, R124). -/
def Obligations.EveryRunKeepsTheInvariant : Prop :=
  ∀ (n : Nat) (s : State), s.Inv → (State.drive n s).Inv

/-- No step changes the parameters, the signal table among them (R13, R161; the table as configuration is the
spec's decision D16, log 1). -/
def Obligations.NoStepChangesTheParameters : Prop :=
  ∀ s t : State, step s = .next t → t.params = s.params

/-- The scripts by which the model holds handlers as data (the model's choice, log 3) reach every triple `(x', mem',
halt')` with every result, so that they cover the whole contract of R162. -/
def Obligations.HandlerScriptsReachEveryTriple : Prop :=
  ∀ (s : State) (x : Regs) (m : Memory) (b : Bool) (res : Option Error), s.Inv →
    Memory.wf m → Memory.within s.params.memSize m →
    ∃ h : HandlerScript, s.runScript h = match res with
      | none => .ok () { s with regs := x, mem := m, halt := b }
      | some e => .err e { s with regs := x, mem := m, halt := b }

/-! ### The step -/

/-- R115, R121. When the word at `PC` decodes to an instruction, the step is that instruction run on the state
with `PC` advanced, and then the commit. -/
def Obligations.StepRunsTheDecodedInstruction : Prop :=
  ∀ (s : State) (w : Word) (i : Instr), s.status = .running → s.fetch = .ok w →
    decode s.params.regCode w = .ok i →
    step s = match exec i s.advancePc with
      | .next t => .next t.commit
      | .fault r => .fault r
      | .refused r => .refused r

/-- R81. The fetched word: the byte at `PC` is its low byte, the opcode; the byte at `PC + 1` its high byte. -/
def Obligations.FetchReadsTheWordAtPc : Prop :=
  ∀ s : State, (s.readReg .pc).toNat + 1 < s.params.memSize → ∃ w, s.fetch = .ok w ∧
    opcodeField w = Memory.read s.mem (s.readReg .pc).toNat ∧
    argField w = Memory.read s.mem ((s.readReg .pc).toNat + 1)

/-- R112. A fetch whose word does not lie in memory raises `MemoryFault(pc0)` and changes nothing else, `PC` included;
otherwise the fetch succeeds. -/
def Obligations.FetchFaultKeepsPc : Prop :=
  ∀ s : State, s.status = .running →
    (s.params.memSize ≤ (s.readReg .pc).toNat + 1 → ∃ t, step s = .next t ∧ t.regs = s.regs ∧ t.mem = s.mem ∧
      s.Raised (.memoryFault (s.readReg .pc).toNat) t) ∧
    ((s.readReg .pc).toNat + 1 < s.params.memSize → s.fetch = .ok (s.wordAt (s.readReg .pc).toNat))

/-- R114. A word that does not decode raises the decode error with `PC` already advanced by 2 and nothing else
changed. -/
def Obligations.DecodeFaultLeavesPcAdvanced : Prop :=
  ∀ (s : State) (w : Word) (e : Error), s.status = .running → s.fetch = .ok w →
    decode s.params.regCode w = .error e →
    ∃ t, step s = .next t ∧ t.readReg .pc = s.readReg .pc + 2 ∧ s.SameRegsExcept [.pc] t ∧ t.mem = s.mem ∧
      s.Raised e t

/-- A core that is `Halted` or `Faulted` has no step, by name, and a run leaves it as it is (R110, R192, R193: the
spec's decisions D12 and D25, log 10). -/
def Obligations.NoStepUnlessRunning : Prop :=
  ∀ s : State, (s.status = .halted → step s = .fault .stepWhileHalted) ∧
    (s.status = .faulted → step s = .fault .stepWhileFaulted) ∧
    (s.status ≠ .running → ∀ n, State.drive n s = s)

/-- The commit (R116; tested at the end of every step by the spec's decision D22, log 20): a step whose instruction
raised nothing ends `Halted` if the halt flag is set and `Running` if not, and changes nothing else; one that raised
an error stays as the error left it. -/
def Obligations.CommitTestsTheHaltFlag : Prop :=
  ∀ (s u : State) (w : Word) (i : Instr), s.status = .running → s.fetch = .ok w →
    decode s.params.regCode w = .ok i → exec i s.advancePc = .next u →
    (u.status = .running → ∃ t, step s = .next t ∧ t.status = (if u.halt = true then .halted else .running) ∧
      t.regs = u.regs ∧ t.mem = u.mem ∧ t.halt = u.halt ∧ t.err = u.err ∧ t.params = u.params) ∧
    (u.status = .faulted → step s = .next u)

/-- `PC` ends a step at the fetch address plus 2, modulo 65536, unless the instruction names `PC` as a destination or
a handler ran (R113; the wrap is the spec's decision D7, log 13). A `Signal` whose code is unbound runs no handler. -/
def Obligations.PcAdvancesByTwo : Prop :=
  ∀ (s t : State) (w : Word), s.fetch = .ok w → step s = .next t →
    (∀ i, decode s.params.regCode w = .ok i → .pc ∉ destsOf i ∧
      ∀ c, i = .signal c → sigLookup s.params.sigTable c = none) →
    t.readReg .pc = s.readReg .pc + 2

/-- `PC` as an operand (R122, R123: the spec's own derivation and its decision D10, log 16): what is read is the
address of the following instruction, and what is written is the next fetch address. -/
def Obligations.PcOperandsTransferControl : Prop :=
  ∀ (s : State) (w : Word), s.status = .running → s.fetch = .ok w →
    (decode s.params.regCode w = .ok (.popRegister .pc) → s.popAddr.toNat + 1 < s.params.memSize →
      ∃ t, step s = .next t ∧ t.readReg .pc = s.wordAt s.popAddr.toNat) ∧
    (decode s.params.regCode w = .ok (.pushRegister .pc) → s.pushAddr.toNat + 1 < s.params.memSize →
      ∃ t, step s = .next t ∧ t.wordAt s.pushAddr.toNat = s.readReg .pc + 2 ∧ t.readReg .pc = s.readReg .pc + 2) ∧
    (∀ r, r ≠ .pc → decode s.params.regCode w = .ok (.addRegister .pc r) →
      ∃ t, step s = .next t ∧ t.readReg .pc = (s.readReg .pc + 2) + s.readReg r) ∧
    (∀ r, r ≠ .pc → decode s.params.regCode w = .ok (.addRegister r .pc) →
      ∃ t, step s = .next t ∧ t.readReg r = s.readReg r + (s.readReg .pc + 2)) ∧
    (decode s.params.regCode w = .ok (.addRegister .pc .pc) →
      ∃ t, step s = .next t ∧ t.readReg .pc = (s.readReg .pc + 2) + (s.readReg .pc + 2))

/-- Which error a step can end in, by what it fetched (R188, R189, which the spec derives). -/
def Obligations.ErrorsByInstruction : Prop :=
  ∀ (s t : State) (e : Error), s.ControlInv → step s = .next t → t.err = some e →
    (s.params.memSize ≤ (s.readReg .pc).toNat + 1 ∧ e = .memoryFault (s.readReg .pc).toNat) ∨
    (∃ w, s.fetch = .ok w ∧ decode s.params.regCode w = .error e) ∨
    (∃ w i, s.fetch = .ok w ∧ decode s.params.regCode w = .ok i ∧ match i with
      | .nop => False
      | .push _ => e = .stackFault
      | .popRegister _ => e = .stackFault
      | .pushRegister _ => e = .stackFault
      | .addRegister _ _ => False
      | .signal c => (sigLookup s.params.sigTable c = none ∧ e = .unknownSignal c) ∨
          ∃ h u, sigLookup s.params.sigTable c = some h ∧ s.advancePc.runHandler h = .err e u
      | .addStack => e = .stackFault)

/-- What a stack instruction that faults has changed, with `W16_PARTIAL = none`: `PC` is advanced, and `SP` is two
less only if the fault is `AddStack`'s second pop (the spec's decision D9, log 15); every other register and all
memory are unchanged (R185, R191, which the spec derives). -/
def Obligations.StackFaultIsPrecise : Prop :=
  ∀ (s t : State) (w : Word) (i : Instr), s.ControlInv → s.params.w16Partial = .nothing → s.fetch = .ok w →
    decode s.params.regCode w = .ok i → step s = .next t → t.err = some .stackFault → (∀ c, i ≠ .signal c) →
    t.readReg .pc = s.readReg .pc + 2 ∧ t.mem = s.mem ∧ s.SameRegsExcept [.pc, .sp] t ∧ t.halt = s.halt ∧
    t.readReg .sp = (if i = .addStack ∧ s.popAddr.toNat + 1 < s.params.memSize
      then s.readReg .sp - 2 else s.readReg .sp)

/-- Only a `Signal` whose code is bound can set the halt flag, and so only it can make the core
`Halted` (R31, R166). -/
def Obligations.OnlySignalHalts : Prop :=
  ∀ s t : State, s.ControlInv → step s = .next t → (t.halt = true ∨ t.status = .halted) →
    ∃ w c h, s.fetch = .ok w ∧ decode s.params.regCode w = .ok (.signal c) ∧
      sigLookup s.params.sigTable c = some h

/-- Fetch reads what was last stored: a word pushed is fetched at once from where it was pushed, and a byte
written at `PC` is the opcode of the word fetched there (R65, R67: the spec's decision D21 and its own derivation). -/
def Obligations.FetchSeesStores : Prop :=
  (∀ (s t : State) (v : Word), s.push16 v = .ok () t → (t.writeReg .pc (s.readReg .sp)).fetch = .ok v) ∧
  (∀ (s t : State) (b : Byte), s.memWrite8 (s.readReg .pc).toNat b = .ok () t →
    (s.readReg .pc).toNat + 1 < s.params.memSize → ∃ w, t.fetch = .ok w ∧ opcodeField w = b)

/-- A step of any instruction but `Signal` depends on memory only through the word at `PC` and the two words below
`SP`: with the same bytes there and any others elsewhere it leaves the same registers and control state (R69, R137).
-/
def Obligations.StepReadsOnlyCodeAndStackWords : Prop :=
  ∀ (s t : State) (m : Memory),
    (∀ a ∈ [(s.readReg .pc).toNat, (s.readReg .pc).toNat + 1, s.popAddr.toNat, s.popAddr.toNat + 1,
      s.sumAddr.toNat, s.sumAddr.toNat + 1], Memory.read m a = Memory.read s.mem a) →
    (∀ w c, s.fetch = .ok w → decode s.params.regCode w ≠ .ok (.signal c)) → step s = .next t →
    ∃ t', step (s.setMem m) = .next t' ∧ t'.regs = t.regs ∧ t.SameControl t'

/-- No instruction stops the model: every one answers a next state in every state, and so does every step
of a `Running` core; its result is success or the one error the next state records (R120, R188). -/
def Obligations.EveryInstructionAnswersANextState : Prop :=
  (∀ (i : Instr) (s : State), ∃ t, exec i s = .next t) ∧
  (∀ s : State, s.status = .running → ∃ t, step s = .next t) ∧
  (∀ s t : State, s.ControlInv → step s = .next t →
    (t.status = .running ∨ t.status = .halted) ∧ t.err = none ∨ t.status = .faulted ∧ ∃ e, t.err = some e)

/-- A run is its steps one after another, and ends where the core is no longer `Running`: further requests change
nothing (R119). In a `Halted` state it has ended successfully, in a `Faulted` one in failure with `err` as the final
error, and in a `Running` one it has not ended (R124). -/
def Obligations.RunsComposeAndStopAtTheirEnd : Prop :=
  ∀ (n k : Nat) (s : State), State.drive 0 s = s ∧
    (∀ t, step s = .next t → State.drive (n + 1) s = State.drive n t) ∧
    State.drive (n + k) s = State.drive k (State.drive n s) ∧
    ((State.drive n s).status ≠ .running → State.drive (n + k) s = State.drive n s) ∧
    (s.runEnd = .going ↔ s.status = .running) ∧ (s.runEnd = .success ↔ s.status = .halted) ∧
    (∀ e, s.runEnd = .failure e ↔ s.status = .faulted ∧ s.err = e)

/-! ### The stack primitives -/

/-- R132. A pop after a push gives the word pushed and `SP` as it was. -/
def Obligations.PopAfterPushGivesTheWordPushed : Prop :=
  ∀ (s t : State) (v : Word), s.push16 v = .ok () t →
    ∃ u, t.pop16 = .ok v u ∧ u.readReg .sp = s.readReg .sp

/-- Once both pops of `AddStack` succeed its push succeeds (R153, which the spec derives). -/
def Obligations.PushOfAddStackCannotFail : Prop :=
  ∀ (s t u : State) (a b v : Word), s.pop16 = .ok a t → t.pop16 = .ok b u → ∃ w, u.push16 v = .ok () w

/-! ### The instructions: result, completion and where they fault -/

/-- R133. `Nop`: every word with a zero low byte is one, it has no effect and no error, and the step only advances
`PC`. One in the last word of memory leaves `PC = MEM_SIZE`, and the next step faults there (with `MEM_SIZE = 65536`
the advance wraps to 0 instead, R27). -/
def Obligations.NopOnlyAdvancesPc : Prop :=
  ∀ (s : State) (rc : List Reg) (arg : Byte),
    decode rc (joinBytes arg 0x00) = .ok .nop ∧ encode rc .nop = 0x0000 ∧ exec .nop s = .next s ∧
    (s.status = .running → s.halt = false → s.fetch = .ok (joinBytes arg 0x00) →
      step s = .next (s.writeReg .pc (s.readReg .pc + 2)) ∧
      ((s.readReg .pc).toNat + 2 = s.params.memSize → s.params.memSize < 65536 →
        step (s.writeReg .pc (s.readReg .pc + 2)) =
          .next ((s.writeReg .pc (s.readReg .pc + 2)).raise (.memoryFault s.params.memSize))))

/-- `Push imm8` (R134): the zero-extended immediate at `SP`, low byte first, and `SP + 2`; `StackFault` with `SP` and
memory unchanged where the word does not fit. With the parameter `W16_PARTIAL = low_byte` the one byte in range is left
written instead (R14: the parameter of the spec's decision D8, log 8). -/
def Obligations.PushPushesTheZeroExtendedImmediate : Prop :=
  ∀ (s : State) (rc : List Reg) (v : Byte) (a : Nat), a = (s.readReg .sp).toNat →
    decode rc (joinBytes v 0x01) = .ok (.push v) ∧
    (a + 1 < s.params.memSize → ∃ t, exec (.push v) s = .next t ∧
      Memory.read t.mem a = v ∧ Memory.read t.mem (a + 1) = 0x00 ∧ t.readReg .sp = s.readReg .sp + 2 ∧
      s.SameRegsExcept [.sp] t ∧ s.SameMemExcept [a, a + 1] t ∧ s.SameControl t) ∧
    (s.params.memSize ≤ a + 1 → s.params.w16Partial = .nothing →
      ∃ t, exec (.push v) s = .next t ∧ t.regs = s.regs ∧ t.mem = s.mem ∧ s.Raised .stackFault t) ∧
    (s.params.memSize ≤ a + 1 → s.params.w16Partial = .lowByte →
      ∃ t, exec (.push v) s = .next t ∧ t.regs = s.regs ∧ s.Raised .stackFault t ∧
        (a + 1 = s.params.memSize → Memory.read t.mem a = v) ∧ s.SameMemExcept [s.params.memSize - 1] t ∧
        (s.params.memSize ≤ a → t.mem = s.mem))

/-- `PushRegister r` (R136): the value `r` has before `SP` moves, all 16 bits, for every role, `SP` and `PC` included;
`StackFault` with `SP` and memory unchanged where the word does not fit. With the parameter `W16_PARTIAL = low_byte` the
one byte in range is left written instead (R14: the parameter of the spec's decision D8, log 8). -/
def Obligations.PushRegisterPushesTheRegister : Prop :=
  ∀ (s : State) (rc : List Reg) (r : Reg) (a : Nat), a = (s.readReg .sp).toNat →
    (∀ c, fromCode rc c = some r → decode rc (joinBytes c 0x03) = .ok (.pushRegister r)) ∧
    (a + 1 < s.params.memSize → ∃ t, exec (.pushRegister r) s = .next t ∧ t.wordAt a = s.readReg r ∧
      t.readReg .sp = s.readReg .sp + 2 ∧ s.SameRegsExcept [.sp] t ∧ s.SameMemExcept [a, a + 1] t ∧
      s.SameControl t) ∧
    (s.params.memSize ≤ a + 1 → s.params.w16Partial = .nothing →
      ∃ t, exec (.pushRegister r) s = .next t ∧ t.regs = s.regs ∧ t.mem = s.mem ∧ s.Raised .stackFault t) ∧
    (s.params.memSize ≤ a + 1 → s.params.w16Partial = .lowByte →
      ∃ t, exec (.pushRegister r) s = .next t ∧ t.regs = s.regs ∧ s.Raised .stackFault t ∧
        (a + 1 = s.params.memSize → Memory.read t.mem a = lowByte (s.readReg r)) ∧
        s.SameMemExcept [s.params.memSize - 1] t ∧ (s.params.memSize ≤ a → t.mem = s.mem))

/-- R135. `PopRegister r`: the word below `SP`, `SP - 2`, the write of `r` last (so for `r = SP` the popped word
stands); `StackFault` with everything unchanged where the word does not lie in memory. -/
def Obligations.PopRegisterPopsIntoTheRegister : Prop :=
  ∀ (s : State) (rc : List Reg) (r : Reg) (a : Word), a = s.readReg .sp - 2 →
    (∀ c, fromCode rc c = some r → decode rc (joinBytes c 0x02) = .ok (.popRegister r)) ∧
    (a.toNat + 1 < s.params.memSize → ∃ t, exec (.popRegister r) s = .next t ∧ t.readReg r = s.wordAt a.toNat ∧
      (r ≠ .sp → t.readReg .sp = a) ∧ s.SameRegsExcept [.sp, r] t ∧ t.mem = s.mem ∧ s.SameControl t) ∧
    (s.params.memSize ≤ a.toNat + 1 →
      ∃ t, exec (.popRegister r) s = .next t ∧ t.regs = s.regs ∧ t.mem = s.mem ∧ s.Raised .stackFault t)

/-- `AddStack` (R151): the two words below `SP` are added with wrap-around, the sum is stored where the second one
was, `SP` ends two less, and every byte outside the sum's word is unchanged. Where the first pop faults nothing is
changed; where the second one faults `SP` is left two less (the spec's decision D9, log 15). -/
def Obligations.AddStackAddsTheTopTwoWords : Prop :=
  ∀ (s : State) (rc : List Reg) (arg : Byte) (a b : Word), a = s.readReg .sp - 2 → b = s.readReg .sp - 4 →
    decode rc (joinBytes arg 0x0F) = .ok .addStack ∧ encode rc .addStack = 0x000F ∧
    (a.toNat + 1 < s.params.memSize → b.toNat + 1 < s.params.memSize →
      ∃ t, exec .addStack s = .next t ∧ t.wordAt b.toNat = s.wordAt a.toNat + s.wordAt b.toNat ∧
        t.readReg .sp = a ∧ s.SameRegsExcept [.sp] t ∧ s.SameMemExcept [b.toNat, b.toNat + 1] t ∧
        s.SameControl t) ∧
    (s.params.memSize ≤ a.toNat + 1 →
      ∃ t, exec .addStack s = .next t ∧ t.regs = s.regs ∧ t.mem = s.mem ∧ s.Raised .stackFault t) ∧
    (a.toNat + 1 < s.params.memSize → s.params.memSize ≤ b.toNat + 1 →
      ∃ t, exec .addStack s = .next t ∧ t.readReg .sp = a ∧ s.SameRegsExcept [.sp] t ∧ t.mem = s.mem ∧
        s.Raised .stackFault t)

/-- R152. `AddRegister r1, r2`: `r1` takes the wrapped sum of both, read before the write, for every pair of roles,
and nothing else changes. -/
def Obligations.AddRegisterAddsIntoTheFirst : Prop :=
  ∀ (s : State) (rc : List Reg) (r1 r2 : Reg),
    (∀ c1 c2 : BitVec 4, rc[c1.toNat]? = some r1 → rc[c2.toNat]? = some r2 →
      decode rc (joinBytes (c1 ++ c2) 0x04) = .ok (.addRegister r1 r2)) ∧
    ∃ t, exec (.addRegister r1 r2) s = .next t ∧
      (t.readReg r1).toNat = ((s.readReg r1).toNat + (s.readReg r2).toNat) % 65536 ∧
      s.SameRegsExcept [r1] t ∧ t.mem = s.mem ∧ s.SameControl t

/-- R160, R184. `Signal code`: every code is a legal encoding; an unbound one raises `UnknownSignal(code)` and changes
nothing else, and its step has advanced `PC` and no more; a bound one runs its handler, and its success or its failure
is the instruction's, with what it changed; after a success the step goes on to its commit. -/
def Obligations.SignalLooksUpItsCode : Prop :=
  ∀ (s : State) (rc : List Reg) (c : Byte),
    decode rc (joinBytes c 0x09) = .ok (.signal c) ∧
    ((∀ h, (c, h) ∉ s.params.sigTable) →
      ∃ t, exec (.signal c) s = .next t ∧ t.regs = s.regs ∧ t.mem = s.mem ∧ s.Raised (.unknownSignal c) t) ∧
    (∀ h u, s.params.WellFormed → (c, h) ∈ s.params.sigTable → s.runHandler h = .ok () u →
      exec (.signal c) s = .next u) ∧
    (∀ h e u, s.params.WellFormed → (c, h) ∈ s.params.sigTable → s.runHandler h = .err e u →
      ∃ t, exec (.signal c) s = .next t ∧ t.regs = u.regs ∧ t.mem = u.mem ∧ u.Raised e t) ∧
    (∀ w, s.status = .running → s.fetch = .ok w → decode s.params.regCode w = .ok (.signal c) →
      ((∀ h, (c, h) ∉ s.params.sigTable) → ∃ t, step s = .next t ∧ t.readReg .pc = s.readReg .pc + 2 ∧
        s.SameRegsExcept [.pc] t ∧ t.mem = s.mem ∧ s.Raised (.unknownSignal c) t) ∧
      (∀ h u, s.params.WellFormed → (c, h) ∈ s.params.sigTable → s.advancePc.runHandler h = .ok () u →
        ∃ t, step s = .next t ∧ t.regs = u.regs ∧ t.mem = u.mem ∧ t.halt = u.halt ∧
          t.status = if u.halt = true then .halted else .running))

/-- A step of `Signal` with a bound code: the handler sees the state with `PC` advanced and all else as it was, the
control state too, so a halt flag that is clear; where it succeeds the step goes on from what it left, to the test of
the halt flag; where it fails its changes stay and its error is raised, whatever the halt flag (R164, R165: the spec's
decision D15 and its own derivation, log 17). -/
def Obligations.SignalRunsItsHandler : Prop :=
  ∀ (s u : State) (w : Word) (c : Byte) (h : Handler), s.status = .running → s.fetch = .ok w →
    decode s.params.regCode w = .ok (.signal c) → sigLookup s.params.sigTable c = some h →
    s.advancePc.readReg .pc = s.readReg .pc + 2 ∧ s.SameRegsExcept [.pc] s.advancePc ∧ s.advancePc.mem = s.mem ∧
    s.SameControl s.advancePc ∧ (s.ControlInv → s.advancePc.halt = false) ∧
    (s.advancePc.runHandler h = .ok () u → ∃ t, step s = .next t ∧ t.regs = u.regs ∧ t.mem = u.mem ∧
      t.halt = u.halt ∧ t.status = (if u.halt = true then .halted else .running) ∧ t.err = s.err) ∧
    (∀ e, s.advancePc.runHandler h = .err e u → ∃ t, step s = .next t ∧ t.regs = u.regs ∧ t.mem = u.mem ∧
      u.Raised e t)

/-- R163. The conventional halt handler changes the halt flag alone and succeeds, so a `Signal` whose code is bound to
it completes, and as a step leaves the core `Halted` with `PC` advanced and nothing else changed. -/
def Obligations.SignalOfTheHaltHandlerHalts : Prop :=
  (∀ (s : State) (c : Byte), sigLookup s.params.sigTable c = some haltHandler →
    exec (.signal c) s = .next { s with halt := true }) ∧
  (∀ (s : State) (w : Word) (c : Byte), s.status = .running → s.fetch = .ok w →
    decode s.params.regCode w = .ok (.signal c) → sigLookup s.params.sigTable c = some haltHandler →
    ∃ t, step s = .next t ∧ t.status = .halted ∧ t.halt = true ∧ t.err = s.err ∧ t.mem = s.mem ∧
      t.readReg .pc = s.readReg .pc + 2 ∧ s.SameRegsExcept [.pc] t)

/-- Whatever a handler does (R162, R186; its limits are the spec's decision D15, log 17), `Signal` answers a next
state with the same parameters, and the core is either not faulted by it or faulted with an error recorded. -/
def Obligations.SignalKeepsTheHandlersLimits : Prop :=
  ∀ (s : State) (c : Byte), ∃ t, exec (.signal c) s = .next t ∧ t.params = s.params ∧
    (t.status = s.status ∧ t.err = s.err ∨ t.status = .faulted ∧ ∃ e, t.err = some e)

/-! ### Frames -/

/-- `Nop` and `AddRegister` leave every register but the destination, every byte of memory, and all
control state (R23, R29, R69). -/
def Obligations.RegisterInstructionsFrame : Prop :=
  ∀ (s t : State) (i : Instr), (i = .nop ∨ ∃ r1 r2, i = .addRegister r1 r2) → exec i s = .next t →
    s.SameRegsExcept (destsOf i) t ∧ (∀ a, Memory.read t.mem a = Memory.read s.mem a) ∧ s.SameControl t

/-- `Push` and `PushRegister` leave every register but `SP`, and every byte outside the word at the
address they store to, whether they complete or fault (R23, R69, R130). -/
def Obligations.PushInstructionsFrame : Prop :=
  ∀ (s t : State) (i : Instr), ((∃ v, i = .push v) ∨ ∃ r, i = .pushRegister r) → exec i s = .next t →
    s.SameRegsExcept [.sp] t ∧ t.halt = s.halt ∧ t.params = s.params ∧ t.hostCalls = s.hostCalls ∧
    (s.SameControl t ∨ s.Raised .stackFault t) ∧
    ∀ a, s.storeAddr i = some a → s.SameMemExcept [a.toNat, a.toNat + 1] t

/-- `PopRegister` leaves every register but `SP` and its own, and every byte of memory (R23, R69, R131). -/
def Obligations.PopInstructionFrame : Prop :=
  ∀ (s t : State) (r : Reg), exec (.popRegister r) s = .next t →
    s.SameRegsExcept [.sp, r] t ∧ (∀ a, Memory.read t.mem a = Memory.read s.mem a) ∧
    (s.SameControl t ∨ s.Raised .stackFault t)

/-- `AddStack` leaves every register but `SP`, and every byte outside the word its sum is stored to (R23, R69,
R151). -/
def Obligations.AddStackFrame : Prop :=
  ∀ s t : State, exec .addStack s = .next t →
    s.SameRegsExcept [.sp] t ∧ (s.SameControl t ∨ s.Raised .stackFault t) ∧
    ∀ a, s.storeAddr .addStack = some a → s.SameMemExcept [a.toNat, a.toNat + 1] t

/-- `FLAGS` is changed only by an instruction that names it as its destination, or by a handler: no
instruction updates it as a side effect (R23, R29). -/
def Obligations.FlagsChangeOnlyAsAnOperand : Prop :=
  ∀ s t : State, step s = .next t → t.readReg .flags ≠ s.readReg .flags →
    ∃ w i, s.fetch = .ok w ∧ decode s.params.regCode w = .ok i ∧ (.flags ∈ destsOf i ∨
      ∃ c h, i = .signal c ∧ sigLookup s.params.sigTable c = some h)

/-- The cause code and the payload of each error (R187: the spec's decision D14, log 21). -/
def Obligations.CauseCodesFollowTheList : Prop :=
  (∀ s : State, s.causeCode = 0 ↔ s.err = none) ∧
  (∀ (s : State) (a : Nat), s.err = some (.memoryFault a) → s.causeCode = 1) ∧
  (∀ (s : State) (b : Byte), (s.err = some (.unknownOpcode b) → s.causeCode = 2) ∧
    (s.err = some (.unknownRegister b) → s.causeCode = 3) ∧ (s.err = some (.unknownSignal b) → s.causeCode = 4)) ∧
  (∀ s : State, s.err = some .stackFault → s.causeCode = 5) ∧
  (∀ a, a ≤ 0x10000 → (errorPayload (.memoryFault a)).toNat = a) ∧
  (∀ b : Byte, (errorPayload (.unknownOpcode b)).toNat = b.toNat ∧ (errorPayload (.unknownRegister b)).toNat = b.toNat ∧
    (errorPayload (.unknownSignal b)).toNat = b.toNat) ∧ errorPayload .stackFault = 0
end

