-- ==== Sys2Proof/Laws/State.lean ====
section
/-! SUPPORT. The small lemmas of the state's updates: what each one leaves in each field. -/

namespace Sys2Proof

@[simp] theorem Regs.get_set_self (x : Regs) (r : Reg) (v : Word) : (x.set r v).get r = v := by
  cases r <;> rfl

theorem Regs.get_set_ne (x : Regs) {r q : Reg} (h : q ≠ r) (v : Word) : (x.set r v).get q = x.get q := by
  cases r <;> cases q <;> first | rfl | exact absurd rfl h

theorem Regs.get_set (x : Regs) (r q : Reg) (v : Word) :
    (x.set r v).get q = if q = r then v else x.get q := by
  split
  · next h => rw [h, Regs.get_set_self]
  · next h => exact Regs.get_set_ne x h v

@[simp] theorem Regs.set_set (x : Regs) (r : Reg) (v w : Word) : (x.set r v).set r w = x.set r w := by
  cases r <;> rfl

@[simp] theorem Regs.set_get_self (x : Regs) (r : Reg) : x.set r (x.get r) = x := by
  cases r <;> rfl

/-- Two register files with the same value in every role are equal (10_state.md R21). -/
theorem Regs.ext_get {x y : Regs} (h : ∀ r, x.get r = y.get r) : x = y := by
  have ha := h .a; have hb := h .b; have hc := h .c; have hm := h .m
  have hs := h .sp; have hp := h .pc; have hbp := h .bp; have hf := h .flags
  cases x; cases y
  simp only [Regs.get] at ha hb hc hm hs hp hbp hf
  subst ha; subst hb; subst hc; subst hm; subst hs; subst hp; subst hbp; subst hf
  rfl

end Sys2Proof

namespace Sys2Proof.Machine

variable (s : State) (r q : Reg) (v : Word) (m : Memory) (b : Bool) (e : Error)

@[simp] theorem State.writeReg_regs : (s.writeReg r v).regs = s.regs.set r v := rfl
@[simp] theorem State.writeReg_mem : (s.writeReg r v).mem = s.mem := rfl
@[simp] theorem State.writeReg_halt : (s.writeReg r v).halt = s.halt := rfl
@[simp] theorem State.writeReg_status : (s.writeReg r v).status = s.status := rfl
@[simp] theorem State.writeReg_err : (s.writeReg r v).err = s.err := rfl
@[simp] theorem State.writeReg_params : (s.writeReg r v).params = s.params := rfl
@[simp] theorem State.writeReg_hostCalls : (s.writeReg r v).hostCalls = s.hostCalls := rfl

@[simp] theorem State.setMem_regs : (s.setMem m).regs = s.regs := rfl
@[simp] theorem State.setMem_mem : (s.setMem m).mem = m := rfl
@[simp] theorem State.setMem_halt : (s.setMem m).halt = s.halt := rfl
@[simp] theorem State.setMem_status : (s.setMem m).status = s.status := rfl
@[simp] theorem State.setMem_err : (s.setMem m).err = s.err := rfl
@[simp] theorem State.setMem_params : (s.setMem m).params = s.params := rfl
@[simp] theorem State.setMem_hostCalls : (s.setMem m).hostCalls = s.hostCalls := rfl

@[simp] theorem State.setHalt_regs : (s.setHalt b).regs = s.regs := rfl
@[simp] theorem State.setHalt_mem : (s.setHalt b).mem = s.mem := rfl
@[simp] theorem State.setHalt_halt : (s.setHalt b).halt = b := rfl
@[simp] theorem State.setHalt_status : (s.setHalt b).status = s.status := rfl
@[simp] theorem State.setHalt_err : (s.setHalt b).err = s.err := rfl
@[simp] theorem State.setHalt_params : (s.setHalt b).params = s.params := rfl
@[simp] theorem State.setHalt_hostCalls : (s.setHalt b).hostCalls = s.hostCalls := rfl

@[simp] theorem State.raise_regs : (s.raise e).regs = s.regs := rfl
@[simp] theorem State.raise_mem : (s.raise e).mem = s.mem := rfl
@[simp] theorem State.raise_halt : (s.raise e).halt = s.halt := rfl
@[simp] theorem State.raise_status : (s.raise e).status = .faulted := rfl
@[simp] theorem State.raise_err : (s.raise e).err = some e := rfl
@[simp] theorem State.raise_params : (s.raise e).params = s.params := rfl
@[simp] theorem State.raise_hostCalls : (s.raise e).hostCalls = s.hostCalls := rfl

@[simp] theorem State.advancePc_regs :
    s.advancePc.regs = s.regs.set .pc (add16 (s.readReg .pc) 2) := rfl
@[simp] theorem State.advancePc_mem : s.advancePc.mem = s.mem := rfl
@[simp] theorem State.advancePc_halt : s.advancePc.halt = s.halt := rfl
@[simp] theorem State.advancePc_status : s.advancePc.status = s.status := rfl
@[simp] theorem State.advancePc_err : s.advancePc.err = s.err := rfl
@[simp] theorem State.advancePc_params : s.advancePc.params = s.params := rfl
@[simp] theorem State.advancePc_hostCalls : s.advancePc.hostCalls = s.hostCalls := rfl

@[simp] theorem State.commit_regs : s.commit.regs = s.regs := by unfold State.commit; split <;> rfl
@[simp] theorem State.commit_mem : s.commit.mem = s.mem := by unfold State.commit; split <;> rfl
@[simp] theorem State.commit_halt : s.commit.halt = s.halt := by unfold State.commit; split <;> rfl
@[simp] theorem State.commit_err : s.commit.err = s.err := by unfold State.commit; split <;> rfl
@[simp] theorem State.commit_params : s.commit.params = s.params := by unfold State.commit; split <;> rfl
@[simp] theorem State.commit_hostCalls : s.commit.hostCalls = s.hostCalls := by
  unfold State.commit; split <;> rfl

/-- What the commit does to the status (40_step_sequencing.md R116). -/
theorem State.commit_status :
    s.commit.status = if s.status = .running ∧ s.halt = true then .halted else s.status := by
  unfold State.commit; split <;> rfl

@[simp] theorem State.partialWrite_regs (a : Nat) : (s.partialWrite a v).regs = s.regs := by
  unfold State.partialWrite; split <;> rfl
@[simp] theorem State.partialWrite_halt (a : Nat) : (s.partialWrite a v).halt = s.halt := by
  unfold State.partialWrite; split <;> rfl
@[simp] theorem State.partialWrite_status (a : Nat) : (s.partialWrite a v).status = s.status := by
  unfold State.partialWrite; split <;> rfl
@[simp] theorem State.partialWrite_err (a : Nat) : (s.partialWrite a v).err = s.err := by
  unfold State.partialWrite; split <;> rfl
@[simp] theorem State.partialWrite_params (a : Nat) : (s.partialWrite a v).params = s.params := by
  unfold State.partialWrite; split <;> rfl
@[simp] theorem State.partialWrite_hostCalls (a : Nat) : (s.partialWrite a v).hostCalls = s.hostCalls := by
  unfold State.partialWrite; split <;> rfl

/-- With `W16_PARTIAL = none` a half-failed write leaves nothing (20_memory.md R54). -/
theorem State.partialWrite_nothing (a : Nat) (h : s.params.w16Partial = .nothing) : s.partialWrite a v = s := by
  unfold State.partialWrite; rw [h]

/-- With `W16_PARTIAL = low_byte` a half-failed write leaves its low byte (R14). -/
theorem State.partialWrite_lowByte (a : Nat) (h : s.params.w16Partial = .lowByte) :
    s.partialWrite a v = s.setMem (Memory.write s.mem a (lowByte v)) := by
  unfold State.partialWrite; rw [h]

@[simp] theorem State.readReg_writeReg_self : (s.writeReg r v).readReg r = v := by
  simp [State.readReg]

theorem State.readReg_writeReg_ne {r q : Reg} (h : q ≠ r) : (s.writeReg r v).readReg q = s.readReg q := by
  simp [State.readReg, Regs.get_set_ne _ h]

theorem State.readReg_writeReg : (s.writeReg r v).readReg q = if q = r then v else s.readReg q := by
  simp [State.readReg, Regs.get_set]

@[simp] theorem State.readReg_setMem : (s.setMem m).readReg q = s.readReg q := rfl
@[simp] theorem State.readReg_setHalt : (s.setHalt b).readReg q = s.readReg q := rfl
@[simp] theorem State.readReg_raise : (s.raise e).readReg q = s.readReg q := rfl
@[simp] theorem State.readReg_commit : s.commit.readReg q = s.readReg q := by simp [State.readReg]
@[simp] theorem State.readReg_partialWrite (a : Nat) : (s.partialWrite a v).readReg q = s.readReg q := by
  simp [State.readReg]
@[simp] theorem State.readReg_advancePc_pc : s.advancePc.readReg .pc = add16 (s.readReg .pc) 2 := by
  simp [State.advancePc]
theorem State.readReg_advancePc_ne {q : Reg} (h : q ≠ .pc) : s.advancePc.readReg q = s.readReg q :=
  State.readReg_writeReg_ne _ _ h

@[simp] theorem State.writeReg_writeReg (w : Word) : (s.writeReg r v).writeReg r w = s.writeReg r w := by
  simp [State.writeReg]

@[simp] theorem State.writeReg_readReg_self : s.writeReg r (s.readReg r) = s := by
  simp [State.writeReg, State.readReg]

/-- The adder as an equation on numbers (42_add.md R150). -/
theorem add16_toNat (a c : Word) : (add16 a c).toNat = (a.toNat + c.toNat) % 65536 := by
  simp [add16, BitVec.toNat_add]

/-- The downward update of `SP` as an equation on numbers (00_scope.md R15). -/
theorem sub16_toNat (a c : Word) : (sub16 a c).toNat = (65536 - c.toNat + a.toNat) % 65536 := by
  simp [sub16, BitVec.toNat_sub]

theorem sub16_add16 (a c : Word) : sub16 (add16 a c) c = a := by simp [sub16, add16]

/-- The bits of a joined word: the low byte below bit 8, the high byte from there (20_memory.md R53). -/
theorem joinBytes_getLsbD (hi lo : Byte) (i : Nat) :
    (joinBytes hi lo).getLsbD i = if i < 8 then lo.getLsbD i else hi.getLsbD (i - 8) := by
  have h : (joinBytes hi lo).getLsbD i = (hi ++ lo).getLsbD i := rfl
  rw [h, BitVec.getLsbD_append]

@[simp] theorem lowByte_joinBytes (hi lo : Byte) : lowByte (joinBytes hi lo) = lo := by
  apply BitVec.eq_of_getLsbD_eq
  intro i hlt
  simp [lowByte, joinBytes_getLsbD, hlt]

@[simp] theorem highByte_joinBytes (hi lo : Byte) : highByte (joinBytes hi lo) = hi := by
  apply BitVec.eq_of_getLsbD_eq
  intro i hlt
  simp [highByte, joinBytes_getLsbD, hlt]

@[simp] theorem joinBytes_highByte_lowByte (w : Word) : joinBytes (highByte w) (lowByte w) = w := by
  apply BitVec.eq_of_getLsbD_eq
  intro i hlt
  rw [joinBytes_getLsbD]
  split
  · next h => rw [lowByte, BitVec.getLsbD_extractLsb']; simp [h]
  · next h =>
    have h8 : i - 8 < 8 := by omega
    have hi' : 8 + (i - 8) = i := by omega
    rw [highByte, BitVec.getLsbD_extractLsb']; simp only [h8, hi', decide_true, Bool.true_and]

end Sys2Proof.Machine
end

