-- ==== Sys2Proof/Laws/Memory.lean ====
section
/-! SUPPORT. The laws of memory: a read after a write, and the canonical form, which every write keeps and which
makes equal memories equal data. -/

namespace Sys2Proof.Machine

theorem Memory.read_absent {m : Memory} {a : Nat} (h : ∀ c ∈ m, c.1 ≠ a) : Memory.read m a = 0 := by
  induction m with
  | nil => rfl
  | cons c rest ih =>
    simp only [Memory.read]
    rw [if_neg (h c (by simp)), ih fun d hd => h d (by simp [hd])]

theorem Memory.mem_erase {m : Memory} {a : Nat} {c : Host.Cell} :
    c ∈ Memory.erase m a ↔ c ∈ m ∧ c.1 ≠ a := by
  simp [Memory.erase]

theorem Memory.read_erase_self (m : Memory) (a : Nat) : Memory.read (Memory.erase m a) a = 0 :=
  Memory.read_absent fun _ hc => (Memory.mem_erase.mp hc).2

theorem Memory.erase_cons_self {c : Host.Cell} {a : Nat} (rest : Memory) (h : c.1 = a) :
    Memory.erase (c :: rest) a = Memory.erase rest a := by
  simp [Memory.erase, h]

theorem Memory.erase_cons_ne {c : Host.Cell} {a : Nat} (rest : Memory) (h : c.1 ≠ a) :
    Memory.erase (c :: rest) a = c :: Memory.erase rest a := by
  simp [Memory.erase, h]

theorem Memory.read_erase_ne (m : Memory) {a a' : Nat} (h : a' ≠ a) :
    Memory.read (Memory.erase m a) a' = Memory.read m a' := by
  induction m with
  | nil => rfl
  | cons c rest ih =>
    by_cases hc : c.1 = a
    · have hne : c.1 ≠ a' := fun h' => h (h'.symm.trans hc)
      rw [Memory.erase_cons_self rest hc, ih, Memory.read, if_neg hne]
    · rw [Memory.erase_cons_ne rest hc, Memory.read, Memory.read, ih]

theorem Memory.read_insert_self {m : Memory} {a : Nat} (b : Byte) (h : ∀ c ∈ m, c.1 ≠ a) :
    Memory.read (Memory.insert (a, b) m) a = b := by
  induction m with
  | nil => simp [Memory.insert, Memory.read]
  | cons c rest ih =>
    simp only [Memory.insert]
    split
    · simp [Memory.read]
    · simp only [Memory.read]
      rw [if_neg (h c (by simp)), ih fun d hd => h d (by simp [hd])]

theorem Memory.read_insert_ne (m : Memory) {a a' : Nat} (b : Byte) (h : a' ≠ a) :
    Memory.read (Memory.insert (a, b) m) a' = Memory.read m a' := by
  induction m with
  | nil => simp [Memory.insert, Memory.read, h.symm]
  | cons c rest ih =>
    simp only [Memory.insert]
    split
    · simp only [Memory.read]; rw [if_neg h.symm]
    · simp only [Memory.read]; rw [ih]

/-- A read after a write to the same address gives the byte written. -/
@[simp] theorem Memory.read_write_self (m : Memory) (a : Nat) (b : Byte) :
    Memory.read (Memory.write m a b) a = b := by
  unfold Memory.write
  split
  · next h => rw [Memory.read_erase_self, h]
  · exact Memory.read_insert_self b fun c hc => (Memory.mem_erase.mp hc).2

/-- A write leaves every other address alone. -/
theorem Memory.read_write_ne (m : Memory) {a a' : Nat} (b : Byte) (h : a' ≠ a) :
    Memory.read (Memory.write m a b) a' = Memory.read m a' := by
  unfold Memory.write
  split
  · exact Memory.read_erase_ne m h
  · rw [Memory.read_insert_ne _ _ h, Memory.read_erase_ne m h]

theorem Memory.read_write (m : Memory) (a a' : Nat) (b : Byte) :
    Memory.read (Memory.write m a b) a' = if a' = a then b else Memory.read m a' := by
  split
  · next h => rw [h, Memory.read_write_self]
  · next h => exact Memory.read_write_ne m b h

theorem Memory.mem_insert {m : Memory} {c d : Host.Cell} : d ∈ Memory.insert c m ↔ d = c ∨ d ∈ m := by
  induction m with
  | nil => simp [Memory.insert]
  | cons e rest ih =>
    simp only [Memory.insert]
    split
    · simp
    · simp only [List.mem_cons, ih]; tauto

theorem Memory.wf_erase {m : Memory} (h : Memory.wf m) (a : Nat) : Memory.wf (Memory.erase m a) :=
  ⟨h.1.filter _, fun c hc => h.2 c (Memory.mem_erase.mp hc).1⟩

theorem Memory.pairwise_insert {m : Memory} {c : Host.Cell} (h : m.Pairwise fun x y => x.1 < y.1)
    (hc : ∀ d ∈ m, d.1 ≠ c.1) : (Memory.insert c m).Pairwise fun x y => x.1 < y.1 := by
  induction m with
  | nil => simp [Memory.insert]
  | cons d rest ih =>
    have hd := List.pairwise_cons.mp h
    simp only [Memory.insert]
    split
    · next hlt =>
      refine List.pairwise_cons.mpr ⟨fun y hy => ?_, h⟩
      rcases List.mem_cons.mp hy with rfl | hy
      · exact hlt
      · exact Nat.lt_trans hlt (hd.1 y hy)
    · next hge =>
      refine List.pairwise_cons.mpr ⟨fun y hy => ?_, ih hd.2 fun e he => hc e (by simp [he])⟩
      rcases Memory.mem_insert.mp hy with rfl | hy
      · have := hc d (by simp); omega
      · exact hd.1 y hy

/-- Every write keeps the canonical form. -/
theorem Memory.wf_write {m : Memory} (h : Memory.wf m) (a : Nat) (b : Byte) : Memory.wf (Memory.write m a b) := by
  unfold Memory.write
  split
  · exact Memory.wf_erase h a
  · next hb =>
    have he := Memory.wf_erase h a
    refine ⟨Memory.pairwise_insert he.1 fun d hd => (Memory.mem_erase.mp hd).2, fun d hd => ?_⟩
    rcases Memory.mem_insert.mp hd with rfl | hd
    · exact hb
    · exact he.2 d hd

/-- A write below `MEM_SIZE` lists no address beyond it. -/
theorem Memory.within_write {m : Memory} {size a : Nat} (h : Memory.within size m) (ha : a < size) (b : Byte) :
    Memory.within size (Memory.write m a b) := by
  intro c hc
  unfold Memory.write at hc
  split at hc
  · exact h c (Memory.mem_erase.mp hc).1
  · rcases Memory.mem_insert.mp hc with rfl | hc
    · exact ha
    · exact h c (Memory.mem_erase.mp hc).1

/-- The memory after reset is in canonical form. -/
theorem State.reset_memory_wf : Memory.wf State.reset.mem := by decide

theorem Memory.read_head (c : Host.Cell) (m : Memory) : Memory.read (c :: m) c.1 = c.2 := by simp [Memory.read]

/-- Two memories in canonical form that read the same everywhere are equal data. -/
theorem Memory.ext_read {m m' : Memory} (h : Memory.wf m) (h' : Memory.wf m')
    (hr : ∀ a, Memory.read m a = Memory.read m' a) : m = m' := by
  induction m generalizing m' with
  | nil =>
    cases m' with
    | nil => rfl
    | cons d t => exact absurd ((Memory.read_head d t).symm.trans (hr d.1).symm) (h'.2 d (by simp))
  | cons c t ih =>
    cases m' with
    | nil => exact absurd ((Memory.read_head c t).symm.trans (hr c.1)) (h.2 c (by simp))
    | cons d t' =>
      have hc := List.pairwise_cons.mp h.1
      have hd := List.pairwise_cons.mp h'.1
      have hkey : c.1 = d.1 := by
        rcases Nat.lt_trichotomy c.1 d.1 with hlt | heq | hlt
        · have : Memory.read (d :: t') c.1 = 0 := Memory.read_absent fun e he => by
            rcases List.mem_cons.mp he with rfl | he
            · omega
            · have := hd.1 e he; omega
          exact absurd (((Memory.read_head c t).symm.trans (hr c.1)).trans this) (h.2 c (by simp))
        · exact heq
        · have : Memory.read (c :: t) d.1 = 0 := Memory.read_absent fun e he => by
            rcases List.mem_cons.mp he with rfl | he
            · omega
            · have := hc.1 e he; omega
          exact absurd (((Memory.read_head d t').symm.trans (hr d.1).symm).trans this) (h'.2 d (by simp))
      have hval : c.2 = d.2 := by
        have := hr c.1
        rwa [Memory.read_head, hkey, Memory.read_head] at this
      have hrest : t = t' := by
        refine ih ⟨hc.2, fun e he => h.2 e (by simp [he])⟩ ⟨hd.2, fun e he => h'.2 e (by simp [he])⟩ fun a => ?_
        by_cases hac : c.1 = a
        · rw [Memory.read_absent fun e he => by have := hc.1 e he; omega,
            Memory.read_absent fun e he => by have := hd.1 e he; omega]
        · have := hr a
          rwa [Memory.read, Memory.read, if_neg hac, if_neg fun hda => hac (hkey.trans hda)] at this
      rw [hrest, Prod.ext hkey hval]

end Sys2Proof.Machine
end

