-- ==== Sys2Proof/Laws/Ops.lean ====
section
/-! SUPPORT. What each shared operation can do, said once: the memory primitives, the stack primitives and the fetch,
each on the accesses that fit in memory and on those that do not. -/

namespace Sys2Proof.Machine

variable (s : State) (a : Nat) (b : Byte) (v : Word)

theorem State.memRead8_of_fits (h : a < s.params.memSize) : s.memRead8 a = .ok (Memory.read s.mem a) :=
  if_pos h

theorem State.memRead8_of_not_fits (h : ¬ a < s.params.memSize) : s.memRead8 a = .error (.memoryFault a) :=
  if_neg h

theorem State.memWrite8_of_fits (h : a < s.params.memSize) :
    s.memWrite8 a b = .ok () (s.setMem (Memory.write s.mem a b)) :=
  if_pos h

theorem State.memWrite8_of_not_fits (h : ¬ a < s.params.memSize) : s.memWrite8 a b = .err (.memoryFault a) s :=
  if_neg h

theorem State.memRead16_of_fits (h : a + 1 < s.params.memSize) :
    s.memRead16 a = .ok (joinBytes (Memory.read s.mem (a + 1)) (Memory.read s.mem a)) := by
  unfold State.memRead16
  rw [if_pos (by omega), if_pos h]

/-- A failed 16-bit read reports the first byte out of range (20_memory.md R53, R60). -/
theorem State.memRead16_of_not_fits (h : ¬ a + 1 < s.params.memSize) :
    s.memRead16 a = .error (.memoryFault (if a < s.params.memSize then a + 1 else a)) := by
  unfold State.memRead16
  rw [if_neg h]
  split <;> rfl

theorem State.memWrite16_of_fits (h : a + 1 < s.params.memSize) :
    s.memWrite16 a v =
      .ok () (s.setMem (Memory.write (Memory.write s.mem a (lowByte v)) (a + 1) (highByte v))) := by
  unfold State.memWrite16
  rw [if_pos (by omega), if_pos h]

/-- A failed 16-bit write reports the first byte out of range and leaves what `W16_PARTIAL` says (R54, R60). -/
theorem State.memWrite16_of_not_fits (h : ¬ a + 1 < s.params.memSize) :
    s.memWrite16 a v =
      if a < s.params.memSize then .err (.memoryFault (a + 1)) (s.partialWrite a v) else .err (.memoryFault a) s := by
  unfold State.memWrite16
  rw [if_neg h]

theorem State.push16_of_fits (h : s.pushAddr.toNat + 1 < s.params.memSize) :
    s.push16 v = .ok () ((s.setMem (Memory.write (Memory.write s.mem s.pushAddr.toNat (lowByte v))
      (s.pushAddr.toNat + 1) (highByte v))).writeReg .sp (add16 s.pushAddr 2)) := by
  unfold State.push16
  rw [State.memWrite16_of_fits s _ v h]
  rfl

/-- A failed push leaves `SP` and memory, but for the low byte under `W16_PARTIAL = low_byte` (R14, R130). -/
theorem State.push16_of_not_fits (h : ¬ s.pushAddr.toNat + 1 < s.params.memSize) :
    s.push16 v = .err .stackFault
      (if s.pushAddr.toNat < s.params.memSize then s.partialWrite s.pushAddr.toNat v else s) := by
  unfold State.push16
  rw [State.memWrite16_of_not_fits s _ v h]
  by_cases ha : s.pushAddr.toNat < s.params.memSize
  · simp only [if_pos ha]
  · simp only [if_neg ha]

/-- With `W16_PARTIAL = none`, the value the spec takes, a failed push leaves everything (R130). -/
theorem State.push16_of_not_fits_nothing (h : ¬ s.pushAddr.toNat + 1 < s.params.memSize)
    (hp : s.params.w16Partial = .nothing) : s.push16 v = .err .stackFault s := by
  rw [State.push16_of_not_fits s v h, State.partialWrite_nothing s v _ hp, ite_self]

theorem State.pop16_of_fits (h : s.popAddr.toNat + 1 < s.params.memSize) :
    s.pop16 = .ok (joinBytes (Memory.read s.mem (s.popAddr.toNat + 1)) (Memory.read s.mem s.popAddr.toNat))
      (s.writeReg .sp s.popAddr) := by
  unfold State.pop16
  simp only [State.readReg_writeReg_self]
  rw [State.memRead16_of_fits (s.writeReg .sp s.popAddr) _ h]
  rfl

/-- A failed pop leaves the state as it was, `SP` restored (41_nop_and_stack.md R131). -/
theorem State.pop16_of_not_fits (h : ¬ s.popAddr.toNat + 1 < s.params.memSize) :
    s.pop16 = .err .stackFault s := by
  unfold State.pop16
  simp only [State.readReg_writeReg_self]
  rw [State.memRead16_of_not_fits (s.writeReg .sp s.popAddr) _ h]
  simp

theorem State.fetch_of_fits (h : (s.readReg .pc).toNat + 1 < s.params.memSize) :
    s.fetch = .ok (joinBytes (Memory.read s.mem ((s.readReg .pc).toNat + 1))
      (Memory.read s.mem (s.readReg .pc).toNat)) := by
  unfold State.fetch
  rw [State.memRead16_of_fits _ _ h]

/-- A failed fetch reports the fetch address (40_step_sequencing.md R112). -/
theorem State.fetch_of_not_fits (h : ¬ (s.readReg .pc).toNat + 1 < s.params.memSize) :
    s.fetch = .error (.memoryFault (s.readReg .pc).toNat) := by
  unfold State.fetch
  rw [State.memRead16_of_not_fits _ _ h]

/-- The ways a composed primitive succeeds. -/
theorem Result.andThen_eq_ok {α β : Type} {r : Result α} {f : α → State → Result β} {w : β} {t : State} :
    r.andThen f = .ok w t ↔ ∃ x u, r = .ok x u ∧ f x u = .ok w t := by
  cases r <;> simp [Result.andThen]

/-- The ways a composed primitive fails. -/
theorem Result.andThen_eq_err {α β : Type} {r : Result α} {f : α → State → Result β} {e : Error} {t : State} :
    r.andThen f = .err e t ↔ r = .err e t ∨ ∃ x u, r = .ok x u ∧ f x u = .err e t := by
  cases r <;> simp [Result.andThen]

/-- A primitive's end is always a next state (40_step_sequencing.md R117, R120). -/
theorem Result.settle_eq_next {r : Result Unit} {t : State} :
    r.settle = .next t ↔ r = .ok () t ∨ ∃ e u, r = .err e u ∧ t = u.raise e := by
  cases r with
  | ok x u => simp [Result.settle]
  | err e u => simp [Result.settle, eq_comm]

end Sys2Proof.Machine
end

