-- ==== Sys2Proof/Laws/Handlers.lean ====
section
/-! SUPPORT. What no handler act and no primitive reaches: the status, the error, the parameters, and the form of
memory (43_signal.md R162). -/

namespace Sys2Proof.Machine

/-- `t` has the status, the error and the parameters of `s`, and memory still in its form. -/
def State.Keeps (s t : State) : Prop :=
  t.status = s.status ∧ t.err = s.err ∧ t.params = s.params ∧ (s.MemInv → t.MemInv)

theorem State.Keeps.refl (s : State) : s.Keeps s := ⟨rfl, rfl, rfl, id⟩

theorem State.Keeps.trans {s t u : State} (h : s.Keeps t) (k : t.Keeps u) : s.Keeps u :=
  ⟨k.1.trans h.1, k.2.1.trans h.2.1, k.2.2.1.trans h.2.2.1, fun m => k.2.2.2 (h.2.2.2 m)⟩

theorem State.keeps_writeReg (s : State) (r : Reg) (v : Word) : s.Keeps (s.writeReg r v) := ⟨rfl, rfl, rfl, id⟩

theorem State.keeps_setHalt (s : State) (b : Bool) : s.Keeps (s.setHalt b) := ⟨rfl, rfl, rfl, id⟩

theorem State.keeps_write (s : State) (a : Nat) (b : Byte) (h : a < s.params.memSize) :
    s.Keeps (s.setMem (Memory.write s.mem a b)) :=
  ⟨rfl, rfl, rfl, fun m => ⟨Memory.wf_write m.1 a b, Memory.within_write m.2 h b⟩⟩

theorem State.keeps_memWrite8 (s : State) (a : Nat) (b : Byte) : s.Keeps (s.memWrite8 a b).state := by
  unfold State.memWrite8
  split
  · next h => exact State.keeps_write s a b h
  · exact State.Keeps.refl s

theorem State.keeps_partialWrite (s : State) (a : Nat) (v : Word) (h : a < s.params.memSize) :
    s.Keeps (s.partialWrite a v) := by
  unfold State.partialWrite
  split
  · exact State.Keeps.refl s
  · exact State.keeps_write s a _ h

theorem State.keeps_memWrite16 (s : State) (a : Nat) (v : Word) : s.Keeps (s.memWrite16 a v).state := by
  unfold State.memWrite16
  split
  · next h =>
    split
    · next h' => exact (State.keeps_write s a _ h).trans (State.keeps_write _ (a + 1) _ h')
    · exact State.keeps_partialWrite s a v h
  · exact State.Keeps.refl s

theorem State.keeps_push16 (s : State) (v : Word) : s.Keeps (s.push16 v).state := by
  have h := State.keeps_memWrite16 s s.pushAddr.toNat v
  unfold State.push16
  split
  · next heq => rw [heq] at h; exact h.trans (State.keeps_writeReg _ _ _)
  · next heq => rw [heq] at h; exact h

theorem State.keeps_pop16 (s : State) : s.Keeps s.pop16.state := by
  by_cases h : s.popAddr.toNat + 1 < s.params.memSize
  · rw [State.pop16_of_fits s h]; exact State.keeps_writeReg _ _ _
  · rw [State.pop16_of_not_fits s h]; exact State.Keeps.refl s

theorem State.keeps_andThen {α β : Type} {s : State} {r : Result α} {f : α → State → Result β}
    (h : s.Keeps r.state) (k : ∀ (v : α) (t : State), t.Keeps (f v t).state) : s.Keeps (r.andThen f).state := by
  cases r with
  | ok v t => exact State.Keeps.trans h (k v t)
  | err e t => exact h

theorem State.keeps_copy (n : Nat) : ∀ (src dst : Nat) (s : State), s.Keeps (State.copy src dst n s).state := by
  induction n with
  | zero => intro src dst s; exact State.Keeps.refl s
  | succ n ih =>
    intro src dst s
    unfold State.copy
    split
    · exact State.Keeps.refl s
    · exact State.keeps_andThen (State.keeps_memWrite8 s dst _) fun _ t => ih _ _ t

theorem State.keeps_writeBytes (bytes : List Byte) :
    ∀ (base : Nat) (s : State), s.Keeps (State.writeBytes bytes base s).state := by
  induction bytes with
  | nil => intro base s; exact State.Keeps.refl s
  | cons b rest ih =>
    intro base s
    exact State.keeps_andThen (State.keeps_memWrite8 s base b) fun _ t => ih _ t

theorem State.keeps_loadReg (s : State) (dst : Reg) (r : Except Error Word) : s.Keeps (s.loadReg dst r).state := by
  cases r with
  | ok v => exact State.keeps_writeReg _ _ _
  | error e => exact State.Keeps.refl s

theorem State.keeps_runAct (s : State) (a : HandlerAct) : s.Keeps (s.runAct a).state := by
  cases a with
  | setReg r v => exact State.keeps_writeReg _ _ _
  | moveReg dst src => exact State.keeps_writeReg _ _ _
  | addImm dst v => exact State.keeps_writeReg _ _ _
  | setHalt b => exact State.keeps_setHalt _ _
  | readByte dst addr => exact State.keeps_loadReg _ _ _
  | readWord dst addr => exact State.keeps_loadReg _ _ _
  | writeByte addr v => exact State.keeps_memWrite8 _ _ _
  | writeWord addr v => exact State.keeps_memWrite16 _ _ _
  | copy src dst n => exact State.keeps_copy _ _ _ _
  | push r => exact State.keeps_push16 _ _
  | pop r => exact State.keeps_andThen (State.keeps_pop16 s) fun v t => State.keeps_writeReg t r v

theorem State.keeps_runActs (acts : List HandlerStep) : ∀ s : State, s.Keeps (State.runActs acts s).state := by
  induction acts with
  | nil => intro s; exact State.Keeps.refl s
  | cons h rest ih =>
    intro s
    have hk := State.keeps_runAct s h.act
    unfold State.runActs
    split
    · next heq => rw [heq] at hk; exact State.Keeps.trans hk (ih _)
    · next heq =>
      rw [heq] at hk
      split
      · exact hk
      · exact State.Keeps.trans hk (ih _)

theorem State.keeps_runScript (s : State) (h : HandlerScript) : s.Keeps (s.runScript h).state := by
  unfold State.runScript
  refine State.keeps_andThen (State.keeps_runActs _ _) fun _ t => ?_
  split <;> exact State.Keeps.refl t

end Sys2Proof.Machine
end

