-- ==== Sys2Proof/Laws/PerInstr.lean ====
section
/-! SUPPORT. Statements about every instruction as syntax, one lemma per constructor. -/

namespace Sys2Proof.Laws.Encoding

open Sys2Proof.Machine

/-- The encoded word has the instruction's opcode in its low byte and its argument in its high byte
(30_encoding.md R81, R84, R93). -/
def Statement (i : Instr) : Prop :=
  ∀ rc : List Reg, opcodeField (encode rc i) = i.opcode ∧ argField (encode rc i) = i.argument rc

theorem nop : Statement .nop := fun _ => ⟨lowByte_joinBytes _ _, highByte_joinBytes _ _⟩

theorem push (v : Byte) : Statement (.push v) := fun _ => ⟨lowByte_joinBytes _ _, highByte_joinBytes _ _⟩

theorem popRegister (r : Reg) : Statement (.popRegister r) :=
  fun _ => ⟨lowByte_joinBytes _ _, highByte_joinBytes _ _⟩

theorem pushRegister (r : Reg) : Statement (.pushRegister r) :=
  fun _ => ⟨lowByte_joinBytes _ _, highByte_joinBytes _ _⟩

theorem addRegister (r1 r2 : Reg) : Statement (.addRegister r1 r2) :=
  fun _ => ⟨lowByte_joinBytes _ _, highByte_joinBytes _ _⟩

theorem signal (code : Byte) : Statement (.signal code) :=
  fun _ => ⟨lowByte_joinBytes _ _, highByte_joinBytes _ _⟩

theorem addStack : Statement .addStack := fun _ => ⟨lowByte_joinBytes _ _, highByte_joinBytes _ _⟩

end Sys2Proof.Laws.Encoding
end

