-- ==== Sys2Proof/Laws/Step.lean ====
section
/-! SUPPORT. Everything a step can do, said once: the ways it answers a next state (40_step_sequencing.md R121). -/

namespace Sys2Proof.Machine

theorem State.execAndCommit_eq_next {s t : State} {i : Instr} :
    s.execAndCommit i = .next t ↔ ∃ u, exec i s = .next u ∧ t = u.commit := by
  unfold State.execAndCommit
  split
  · next u heq => simp [heq, eq_comm]
  · next heq => simp [heq]
  · next heq => simp [heq]

/-- A step answers a next state only while `Running`, and then it is one of: a fetch error raised, a decode error
raised after the advance, or the decoded instruction run after the advance and committed. -/
theorem step_next_cases {s t : State} (h : step s = .next t) :
    s.status = .running ∧
    ((∃ e, s.fetch = .error e ∧ t = s.raise e) ∨
     (∃ w e, s.fetch = .ok w ∧ s.advancePc.decodeWord w = .error e ∧ t = s.advancePc.raise e) ∨
     (∃ w i u, s.fetch = .ok w ∧ s.advancePc.decodeWord w = .ok i ∧ exec i s.advancePc = .next u ∧ t = u.commit)) := by
  unfold step at h
  split at h
  · next hs =>
    refine ⟨hs, ?_⟩
    unfold State.stepRunning at h
    split at h
    · next e he => exact .inl ⟨e, he, by simpa using h.symm⟩
    · next w hw =>
      split at h
      · next e he => exact .inr (.inl ⟨w, e, hw, he, by simpa using h.symm⟩)
      · next i hi =>
        obtain ⟨u, hu, ht⟩ := State.execAndCommit_eq_next.mp h
        exact .inr (.inr ⟨w, i, u, hw, hi, hu, ht⟩)
  · cases h
  · cases h

end Sys2Proof.Machine
end

