-- ==== Sys2Proof/Tests/Slice0.lean ====
section
/-! SUPPORT. Tests: ill-formed terms that the checks refuse, words decoded as the encoding table says, single steps
with the results of spec/95_test_vectors.md, and for each obligation with hypotheses a witness that meets them. -/

namespace Sys2Proof.Tests

open Sys2Proof Sys2Proof.Machine

/-! ### Builders -/

/-- The reset state with other registers and with bytes in memory. -/
def start (x : Regs) (cells : Memory) : State := { State.reset with regs := x, mem := cells }

/-- The reset state with an instruction word at the program counter. -/
def atReset (w : Nat) : State := State.reset.withFetchWord 16 w

/-- A state with all 65536 bytes of memory. -/
def full (s : State) : State := { s with params := { s.params with memSize := 65536 } }

/-- A state whose failed 16-bit writes leave their low byte. -/
def lowByteLands (s : State) : State := { s with params := { s.params with w16Partial := .lowByte } }

/-- A state with another signal table. -/
def withTable (t : List (Byte × Handler)) (s : State) : State := { s with params := { s.params with sigTable := t } }

/-- The next state, where there is one. -/
def after (o : StepOutcome) : Option State :=
  match o with
  | .next t => some t
  | .fault _ => none
  | .refused _ => none

/-- Whether a step stops with a given fault. -/
def stops (o : StepOutcome) (f : Fault) : Bool :=
  match o with
  | .next _ => false
  | .fault g => f == g
  | .refused _ => false

/-- What most rows of the vectors list: `PC`, `SP`, the error, and whether the core is still running. -/
def view (s : State) : Word × Word × Option Error × Status := (s.regs.pc, s.regs.sp, s.err, s.status)

/-- A handler that adds one to `A` (95_test_vectors.md, table S, code 0x01). -/
def countHandler : Handler := .script ⟨[⟨.addImm .a 1, true⟩], none⟩

/-- A handler that sets the halt flag and fails with `StackFault` (table S, code 0x02). -/
def failHandler : Handler := .script ⟨[⟨.setHalt true, true⟩], some .stackFault⟩

/-! ### Ill-formed terms -/

theorem test_wf_default : defaultParams.WellFormed := by decide
theorem test_wf_memory_too_large : ¬ ({ defaultParams with memSize := 65537 } : Params).WellFormed := by decide
theorem test_wf_role_missing : ¬ RegCode.WellFormed [.a, .b, .c, .m, .sp, .pc, .bp] := by decide
theorem test_wf_role_twice : ¬ RegCode.WellFormed [.a, .b, .c, .m, .sp, .pc, .bp, .a] := by decide
theorem test_wf_signal_bound_twice :
    ¬ ({ defaultParams with sigTable := [(9, haltHandler), (9, countHandler)] } : Params).WellFormed := by decide
theorem test_wf_register_without_code : ¬ (Instr.addRegister .a .flags).WellFormed [.a, .b] := by decide
theorem test_wf_memory_unsorted : ¬ Memory.wf [(2, 1), (1, 1)] := by decide
theorem test_wf_memory_zero_listed : ¬ Memory.wf [(2, 0)] := by decide
theorem test_wf_memory_out_of_range : ¬ Memory.within 8192 [(8192, 1)] := by decide

/-! ### Decoding: words from the encoding table R84 and from 95_test_vectors.md, table E -/

theorem test_decode_nop : decode defaultRegCode 0x0000 = .ok .nop ∧ decode defaultRegCode 0xAB00 = .ok .nop := by
  decide
theorem test_decode_push : decode defaultRegCode 0x0A01 = .ok (.push 10) ∧
    decode defaultRegCode 0xFF01 = .ok (.push 255) := by decide
theorem test_decode_popRegister : decode defaultRegCode 0x0502 = .ok (.popRegister .pc) ∧
    decode defaultRegCode 0x0802 = .error (.unknownRegister 0x08) ∧
    decode defaultRegCode 0x1002 = .error (.unknownRegister 0x10) := by decide
theorem test_decode_pushRegister : decode defaultRegCode 0x0203 = .ok (.pushRegister .c) ∧
    decode defaultRegCode 0x0603 = .ok (.pushRegister .bp) := by decide
theorem test_decode_addRegister : decode defaultRegCode 0x7004 = .ok (.addRegister .flags .a) ∧
    decode defaultRegCode 0x0104 = .ok (.addRegister .a .b) ∧
    decode defaultRegCode 0x8904 = .error (.unknownRegister 0x08) ∧
    decode defaultRegCode 0x0904 = .error (.unknownRegister 0x09) := by decide
theorem test_decode_signal : decode defaultRegCode 0x2A09 = .ok (.signal 0x2A) := by decide
theorem test_decode_addStack : decode defaultRegCode 0x7F0F = .ok .addStack := by decide
theorem test_decode_unknown : decode defaultRegCode 0x1208 = .error (.unknownOpcode 0x08) ∧
    decode defaultRegCode 0xFFFF = .error (.unknownOpcode 0xFF) := by decide
theorem test_encode_words : encode defaultRegCode (.addRegister .flags .a) = 0x7004 ∧
    encode defaultRegCode (.popRegister .sp) = 0x0402 ∧ encode defaultRegCode (.push 8) = 0x0801 := by decide
theorem test_decodeTableWord : decodeTableWord 16 0x0104 = some (.addRegister .a .b) ∧
    decodeTableWord 16 0x0005 = none ∧ decodeTableWord 8 0x0F = some .addStack := by decide
theorem test_fromName : fromName "SP" = some .sp ∧ fromName "sp" = none := by decide

/-! ### Memory: parts 1 and 2 of the vectors -/

theorem test_write16_little_endian :
    (State.reset.memWrite16 0 0xBEEF).state.mem = [(0, 0xEF), (1, 0xBE)] := by decide
theorem test_write16_past_the_end : State.reset.memWrite16 0x1FFF 0x1234 = .err (.memoryFault 0x2000) State.reset := by
  decide
theorem test_write16_low_byte_lands : (lowByteLands State.reset).memWrite16 0x1FFF 0x1234 =
    .err (.memoryFault 0x2000) { lowByteLands State.reset with mem := [(0x1FFF, 0x34)] } := by decide
theorem test_read16_at_the_top : (full State.reset).memRead16 0xFFFF = .error (.memoryFault 0x10000) := by decide
theorem test_write_of_zero_removes : Memory.write [(3, 1), (5, 2), (9, 3)] 5 0 = [(3, 1), (9, 3)] := by decide
theorem test_copy_overlap :
    (State.copy 0 1 3 (start resetRegs [(0, 0x0A), (1, 0x0B), (2, 0x0C), (3, 0x0D)])).state.mem =
      [(0, 0x0A), (1, 0x0A), (2, 0x0A), (3, 0x0A)] := by decide
theorem test_copy_partial : State.copy 0x1FFE 0 3 (start resetRegs [(0x1FFE, 1), (0x1FFF, 2)]) =
    .err (.memoryFault 0x2000) (start resetRegs [(0, 1), (1, 2), (0x1FFE, 1), (0x1FFF, 2)]) := by decide
theorem test_loadBulk_answers : State.loadBulk [0x01, 0x0A, 0x09] 0 State.reset =
    .ok (3, 1) (start resetRegs [(0, 0x01), (1, 0x0A), (2, 0x09)]) := by decide
/-- The first is 95_test_vectors.md's; the second, beyond the end of memory, is the model's choice (log 30). -/
theorem test_loadBulk_empty : State.loadBulk [] 0x2000 State.reset = .ok (0, 0) State.reset ∧
    State.loadBulk [] 0x2001 State.reset = .ok (0, 0) State.reset := by decide
theorem test_loadBulk_partial : State.loadBulk [0x11, 0x22, 0x33] 0x1FFE State.reset =
    .err (.memoryFault 0x2000) (start resetRegs [(0x1FFE, 0x11), (0x1FFF, 0x22)]) := by decide

/-! ### Sequencing: table F -/

theorem test_fetch_keeps_pc : (after (step (start { resetRegs with pc := 0x1FFF } []))).map view =
    some (0x1FFF, 0x1000, some (.memoryFault 0x1FFF), .faulted) := by decide
theorem test_decode_fault_advances_pc : (after (step (atReset 0x0802))).map view =
    some (2, 0x1000, some (.unknownRegister 0x08), .faulted) := by decide
theorem test_no_step_when_halted :
    stops (step { State.reset with status := .halted, halt := true }) .stepWhileHalted = true := by decide
theorem test_no_step_when_faulted :
    stops (step (State.reset.raise .stackFault)) .stepWhileFaulted = true := by decide

/-! ### One step of each instruction -/

theorem test_nop_pc_wraps : (after (step (full (start { resetRegs with pc := 0xFFFE } [])))).map view =
    some (0, 0x1000, none, .running) := by decide
theorem test_nop_ignores_argument : (after (step (atReset 0xAB00))).map view = some (2, 0x1000, none, .running) := by
  decide
theorem test_push_zero_extends : (after (step (start { resetRegs with sp := 0x1FFE } [(0, 0x01), (1, 0xFF)]))).map
    (fun t => (t.mem, t.regs.sp)) = some ([(0, 0x01), (1, 0xFF), (0x1FFE, 0xFF)], 0x2000) := by decide
theorem test_push_fault : (after (step (start { resetRegs with sp := 0x1FFF } [(0, 0x01), (1, 0xFF)]))).map view =
    some (2, 0x1FFF, some .stackFault, .faulted) := by decide
theorem test_pop_into_pc : (after (step (start { resetRegs with pc := 0x20, sp := 0x1002 }
    [(0x20, 0x02), (0x21, 0x05), (0x1000, 0x01), (0x1001, 0x03)]))).map view =
      some (0x0301, 0x1000, none, .running) := by decide
theorem test_pop_restores_sp : (after (step (start { resetRegs with pc := 0x10, sp := 1 }
    [(0x10, 0x02), (0x11, 0x01)]))).map view = some (0x12, 1, some .stackFault, .faulted) := by decide
theorem test_push_of_sp : (after (step (atReset 0x0403))).map (fun t => (t.wordAt 0x1000, t.regs.sp)) =
    some (0x1000, 0x1002) := by decide
theorem test_push_of_pc : (after (step (start { resetRegs with pc := 0x40 } [(0x40, 0x03), (0x41, 0x05)]))).map
    (fun t => (t.wordAt 0x1000, t.regs.pc)) = some (0x0042, 0x0042) := by decide
theorem test_addStack_wraps : (after (step (start { resetRegs with pc := 0x100, sp := 4 }
    [(0, 0xFF), (1, 0xFF), (2, 2), (0x100, 0x0F)]))).map (fun t => (t.mem, t.regs.sp)) =
      some ([(0, 1), (2, 2), (0x100, 0x0F)], 2) := by decide
theorem test_addStack_second_pop : (after (step (start { resetRegs with pc := 0x100, sp := 2 }
    [(0, 0x11), (1, 0x22), (0x100, 0x0F)]))).map view = some (0x102, 0, some .stackFault, .faulted) := by decide
theorem test_addRegister_into_pc : (after (step (start { resetRegs with pc := 0x10, b := 0xFFFC }
    [(0x10, 0x04), (0x11, 0x51)]))).map (·.regs.pc) = some 0x000E := by decide
theorem test_addRegister_reads_pc : (after (step (start { resetRegs with pc := 0x10, a := 1 }
    [(0x10, 0x04), (0x11, 0x05)]))).map (·.regs.a) = some 0x0013 := by decide
theorem test_signal_handler_fails : (after (step (withTable [(2, failHandler)] (atReset 0x0209)))).map
    (fun t => (view t, t.halt)) = some ((2, 0x1000, some .stackFault, .faulted), true) := by decide
theorem test_signal_halts : (after (step (atReset 0x0909))).map view = some (2, 0x1000, none, .halted) := by decide

/-! ### Witnesses: for each obligation with hypotheses, states and operands that meet all of them -/

/-- The reset state with a word at the program counter, the stack pointer moved, and words below it. -/
def stackAt (w : Nat) (sp : Word) : State :=
  (State.withFetchWord (start { resetRegs with sp := sp } [(0x0FFC, 7), (0x0FFE, 5)]) 16 w)

theorem witness_DecodeOfEncodeIsTheInstruction : RegCode.WellFormed defaultRegCode ∧
    (defaultRegCode ++ defaultRegCode).length ≤ 16 ∧
    (Instr.addRegister .a .flags).WellFormed (defaultRegCode ++ defaultRegCode) := by decide
theorem witness_EncodeGivesTheWordsOfTheTable : RegCode.WellFormed defaultRegCode ∧
    RegCode.WellFormed [.flags, .bp, .pc, .sp, .m, .c, .b, .a] := by decide
theorem witness_DecodeFollowsTheOpcodeTable : ∀ w ∈ ([0x0000, 0xFF01, 0x0702, 0x0802, 0x0003, 0x0803, 0x7704, 0x8704,
    0x7804, 0xFF09, 0xFF0F, 0x0005, 0x0008, 0x000A, 0x0010] : List Word),
    ∃ op arg : Nat, op = w.toNat % 256 ∧ arg = w.toNat / 256 := fun _ _ => ⟨_, _, rfl, rfl⟩
theorem witness_FromCodeIsTheRegisterTable : 8 ≤ (8 : Byte).toNat ∧ 8 ≤ (255 : Byte).toNat := by decide
theorem witness_RegisterCodesAreABijection : RegCode.WellFormed defaultRegCode ∧ (7 : Byte).toNat < 8 ∧
    8 ≤ (8 : Byte).toNat := by decide
theorem witness_DecodeRejectsExactlyTheIllegalWords : RegCode.WellFormed defaultRegCode ∧
    decode defaultRegCode 0x0005 = .error (.unknownOpcode 5) ∧
    decode defaultRegCode 0x0802 = .error (.unknownRegister 8) ∧
    decode defaultRegCode 0x0803 = .error (.unknownRegister 8) ∧
    decode defaultRegCode 0x8F04 = .error (.unknownRegister 8) ∧
    decode defaultRegCode 0x7F04 = .error (.unknownRegister 0x0F) := by decide
theorem witness_EncodeOfDecodeIsTheCanonicalWord : RegCode.WellFormed defaultRegCode ∧
    decode defaultRegCode 0x0000 = .ok .nop ∧ decode defaultRegCode 0xAB00 = .ok .nop ∧
    decode defaultRegCode 0x7F0F = .ok .addStack ∧ decode defaultRegCode 0xFF01 = .ok (.push 255) := by decide
theorem witness_AdderWrapsModulo65536 : 0 < (1 : Word).toNat ∧ 0 < (0xFFFF : Word).toNat := by decide
theorem witness_ByteAccessesAreBoundsChecked : 0x1FFF < State.reset.params.memSize ∧
    State.reset.params.memSize ≤ 0x2000 := by decide
theorem witness_WordReadIsLittleEndian : 0x1FFE + 1 < State.reset.params.memSize ∧
    State.reset.params.memSize ≤ 0x2000 ∧ 0x1FFF < State.reset.params.memSize ∧
    State.reset.params.memSize ≤ 0x1FFF + 1 := by decide
theorem witness_WordWriteIsLittleEndianAndWhole : 0x1FFE + 1 < State.reset.params.memSize ∧
    State.reset.params.memSize ≤ 0x2000 ∧ 0x1FFF + 1 = State.reset.params.memSize ∧
    State.reset.params.w16Partial = .nothing ∧ 0x1FFF + 1 = (lowByteLands State.reset).params.memSize ∧
    (lowByteLands State.reset).params.w16Partial = .lowByte := by decide
theorem witness_ReadAfterWriteGivesTheValueWritten : 0x1FFE + 1 < State.reset.params.memSize ∧
    0x1FFF < State.reset.params.memSize ∧ 0x1FFF + 1 = State.reset.params.memSize := by decide
theorem witness_NoAccessWrapsAtTheTop : (full State.reset).params.WellFormed ∧
    (full State.reset).params.memSize = 65536 ∧ State.reset.params.WellFormed ∧
    State.reset.params.memSize < 65536 := by decide
/-- The whole copy; stopped by the source; stopped by the destination. -/
theorem witness_CopyMovesBytesInAscendingOrder :
    3 = min 3 (min (State.reset.params.memSize - 0) (State.reset.params.memSize - 1)) ∧
    2 = min 3 (min (State.reset.params.memSize - 0x1FFE) (State.reset.params.memSize - 0)) ∧
    State.reset.params.memSize ≤ 0x1FFE + 2 ∧
    1 = min 3 (min (State.reset.params.memSize - 0) (State.reset.params.memSize - 0x1FFF)) ∧
    0 + 1 < State.reset.params.memSize := by decide
theorem witness_LoadBulkWritesTheImage :
    3 = min [(1 : Byte), 2, 3].length (State.reset.params.memSize - 0x1FFD) ∧
    2 = min [(1 : Byte), 2, 3].length (State.reset.params.memSize - 0x1FFE) ∧ [(1 : Byte), 2, 3][0]? = some 1 ∧
    0 = min ([] : List Byte).length (State.reset.params.memSize - 0x2001) := by decide
theorem witness_ResetMeetsTheInvariant : defaultParams.WellFormed ∧
    ({ defaultParams with memSize := 65536, sigTable := [] } : Params).WellFormed := by decide
theorem witness_StepKeepsTheInvariant : (atReset 0x0A01).Inv ∧ ∃ t, step (atReset 0x0A01) = .next t :=
  ⟨by decide, _, rfl⟩
theorem witness_ControlStateKeepsItsInvariants :
    (atReset 0x0909).ControlInv ∧ ∃ t, step (atReset 0x0909) = .next t := ⟨by decide, _, rfl⟩
theorem witness_EveryRunKeepsTheInvariant : (atReset 0x0A01).Inv := by decide
theorem witness_NoStepChangesTheParameters : ∃ t, step (atReset 0x0909) = .next t := ⟨_, rfl⟩
theorem witness_HandlerScriptsReachEveryTriple : State.reset.Inv ∧ Memory.wf [(0x1FFF, 1)] ∧
    Memory.within State.reset.params.memSize [(0x1FFF, 1)] := by decide
theorem witness_StepRunsTheDecodedInstruction : (atReset 0x0A01).status = .running ∧
    (atReset 0x0A01).fetch = .ok 0x0A01 ∧
    decode (atReset 0x0A01).params.regCode 0x0A01 = .ok (.push 10) := by decide
theorem witness_FetchReadsTheWordAtPc :
    ((start { resetRegs with pc := 0x1FFE } []).readReg .pc).toNat + 1 < State.reset.params.memSize := by decide
theorem witness_FetchFaultKeepsPc : (start { resetRegs with pc := 0x1FFF } []).status = .running ∧
    State.reset.params.memSize ≤ ((start { resetRegs with pc := 0x1FFF } []).readReg .pc).toNat + 1 ∧
    (start { resetRegs with pc := 0x1FFE } []).status = .running ∧
    ((start { resetRegs with pc := 0x1FFE } []).readReg .pc).toNat + 1 < State.reset.params.memSize := by decide
theorem witness_DecodeFaultLeavesPcAdvanced : (atReset 0x0802).status = .running ∧
    (atReset 0x0802).fetch = .ok 0x0802 ∧
    decode (atReset 0x0802).params.regCode 0x0802 = .error (.unknownRegister 8) := by decide
theorem witness_NoStepUnlessRunning : ({ State.reset with status := .halted, halt := true } : State).status = .halted ∧
    (State.reset.raise .stackFault).status = .faulted := by decide
/-- A step that goes on, one that halts, one that faults. -/
theorem witness_CommitTestsTheHaltFlag :
    ((atReset 0x0000).status = .running ∧ (atReset 0x0000).fetch = .ok 0x0000 ∧
      decode (atReset 0x0000).params.regCode 0x0000 = .ok .nop ∧
      ∃ u, exec .nop (atReset 0x0000).advancePc = .next u ∧ u.status = .running ∧ u.halt = false) ∧
    ((atReset 0x0909).status = .running ∧ (atReset 0x0909).fetch = .ok 0x0909 ∧
      decode (atReset 0x0909).params.regCode 0x0909 = .ok (.signal 9) ∧
      ∃ u, exec (.signal 9) (atReset 0x0909).advancePc = .next u ∧ u.status = .running ∧ u.halt = true) ∧
    ((atReset 0x2A09).status = .running ∧ (atReset 0x2A09).fetch = .ok 0x2A09 ∧
      decode (atReset 0x2A09).params.regCode 0x2A09 = .ok (.signal 0x2A) ∧
      ∃ u, exec (.signal 0x2A) (atReset 0x2A09).advancePc = .next u ∧ u.status = .faulted) :=
  ⟨⟨rfl, by decide, by decide, _, rfl, rfl, rfl⟩, ⟨rfl, by decide, by decide, _, rfl, rfl, rfl⟩,
    ⟨rfl, by decide, by decide, _, rfl, rfl⟩⟩
/-- A push, and a `Signal` whose code is unbound. -/
theorem witness_PcAdvancesByTwo :
    ((atReset 0x0A01).fetch = .ok 0x0A01 ∧ (∃ t, step (atReset 0x0A01) = .next t) ∧
      ∀ i, decode (atReset 0x0A01).params.regCode 0x0A01 = .ok i → .pc ∉ destsOf i ∧
        ∀ c, i = .signal c → sigLookup (atReset 0x0A01).params.sigTable c = none) ∧
    ((atReset 0x2A09).fetch = .ok 0x2A09 ∧ (∃ t, step (atReset 0x2A09) = .next t) ∧
      ∀ i, decode (atReset 0x2A09).params.regCode 0x2A09 = .ok i → .pc ∉ destsOf i ∧
        ∀ c, i = .signal c → sigLookup (atReset 0x2A09).params.sigTable c = none) := by
  refine ⟨⟨by decide, ⟨_, rfl⟩, fun i h => ?_⟩, ⟨by decide, ⟨_, rfl⟩, fun i h => ?_⟩⟩
  · cases (show (Except.ok (.push 0x0A) : Except Error Instr) = .ok i from h)
    exact ⟨by decide, nofun⟩
  · cases (show (Except.ok (.signal 0x2A) : Except Error Instr) = .ok i from h)
    exact ⟨by decide, fun c k => by cases k; decide⟩
theorem witness_PcOperandsTransferControl :
    (∀ w ∈ ([0x0502, 0x0503, 0x5104, 0x1504, 0x5504] : List Nat),
      (atReset w).status = .running ∧ (atReset w).fetch = .ok (BitVec.ofNat 16 w)) ∧
    decode defaultRegCode 0x0502 = .ok (.popRegister .pc) ∧
    (atReset 0x0502).popAddr.toNat + 1 < (atReset 0x0502).params.memSize ∧
    decode defaultRegCode 0x0503 = .ok (.pushRegister .pc) ∧
    (atReset 0x0503).pushAddr.toNat + 1 < (atReset 0x0503).params.memSize ∧
    decode defaultRegCode 0x5104 = .ok (.addRegister .pc .b) ∧
    decode defaultRegCode 0x1504 = .ok (.addRegister .b .pc) ∧
    decode defaultRegCode 0x5504 = .ok (.addRegister .pc .pc) := by decide
theorem witness_ErrorsByInstruction : (stackAt 0xFF01 0x1FFF).ControlInv ∧
    ∃ t, step (stackAt 0xFF01 0x1FFF) = .next t ∧ t.err = some .stackFault := ⟨by decide, _, rfl, rfl⟩
/-- The fault of a push and the fault of `AddStack`'s second pop. -/
theorem witness_StackFaultIsPrecise :
    ((stackAt 0xFF01 0x1FFF).ControlInv ∧ (stackAt 0xFF01 0x1FFF).params.w16Partial = .nothing ∧
      (stackAt 0xFF01 0x1FFF).fetch = .ok 0xFF01 ∧
      decode (stackAt 0xFF01 0x1FFF).params.regCode 0xFF01 = .ok (.push 255) ∧
      (∀ c, Instr.push 255 ≠ .signal c) ∧
      ∃ t, step (stackAt 0xFF01 0x1FFF) = .next t ∧ t.err = some .stackFault) ∧
    ((stackAt 0x000F 2).ControlInv ∧ (stackAt 0x000F 2).params.w16Partial = .nothing ∧
      (stackAt 0x000F 2).fetch = .ok 0x000F ∧ decode (stackAt 0x000F 2).params.regCode 0x000F = .ok .addStack ∧
      (stackAt 0x000F 2).popAddr.toNat + 1 < (stackAt 0x000F 2).params.memSize ∧
      (∀ c, Instr.addStack ≠ .signal c) ∧ ∃ t, step (stackAt 0x000F 2) = .next t ∧ t.err = some .stackFault) :=
  ⟨⟨by decide, by decide, by decide, by decide, nofun, _, rfl, rfl⟩,
    ⟨by decide, by decide, by decide, by decide, by decide, nofun, _, rfl, rfl⟩⟩
theorem witness_OnlySignalHalts : (atReset 0x0909).ControlInv ∧
    ∃ t, step (atReset 0x0909) = .next t ∧ (t.halt = true ∨ t.status = .halted) :=
  ⟨by decide, _, rfl, .inl rfl⟩
theorem witness_FetchSeesStores : (∃ t, State.reset.push16 0xCAFE = .ok () t) ∧
    (∃ t, State.reset.memWrite8 (State.reset.readReg .pc).toNat 0x0F = .ok () t) ∧
    (State.reset.readReg .pc).toNat + 1 < State.reset.params.memSize := ⟨⟨_, rfl⟩, ⟨_, rfl⟩, by decide⟩
/-- The memory of the second state has a byte more, away from the words the step reads. -/
theorem witness_StepReadsOnlyCodeAndStackWords :
    (∀ a ∈ [((stackAt 0x000F 0x1000).readReg .pc).toNat, ((stackAt 0x000F 0x1000).readReg .pc).toNat + 1,
      (stackAt 0x000F 0x1000).popAddr.toNat, (stackAt 0x000F 0x1000).popAddr.toNat + 1,
      (stackAt 0x000F 0x1000).sumAddr.toNat, (stackAt 0x000F 0x1000).sumAddr.toNat + 1],
      Memory.read (Memory.write (stackAt 0x000F 0x1000).mem 0x1FFF 9) a =
        Memory.read (stackAt 0x000F 0x1000).mem a) ∧
    (∀ w c, (stackAt 0x000F 0x1000).fetch = .ok w →
      decode (stackAt 0x000F 0x1000).params.regCode w ≠ .ok (.signal c)) ∧
    ∃ t, step (stackAt 0x000F 0x1000) = .next t := by
  refine ⟨by decide, fun w c h k => ?_, _, rfl⟩
  cases (show (Except.ok (0x000F : Word) : Except Error Word) = .ok w from h)
  cases (show (Except.ok .addStack : Except Error Instr) = .ok (.signal c) from k)
theorem witness_EveryInstructionAnswersANextState : (atReset 0x0A01).status = .running ∧ (atReset 0x0A01).ControlInv ∧
    ∃ t, step (atReset 0x0A01) = .next t := ⟨rfl, by decide, _, rfl⟩
/-- A run that has ended, a step to take, and a state of each status. -/
theorem witness_RunsComposeAndStopAtTheirEnd : (State.drive 1 (atReset 0x0909)).status ≠ .running ∧
    (∃ t, step (atReset 0x0A01) = .next t) ∧ State.reset.status = .running ∧
    ({ State.reset with status := .halted, halt := true } : State).status = .halted ∧
    ((State.reset.raise .stackFault).status = .faulted ∧ (State.reset.raise .stackFault).err = some .stackFault) :=
  ⟨by decide, ⟨_, rfl⟩, rfl, rfl, rfl, rfl⟩
theorem witness_PopAfterPushGivesTheWordPushed : ∃ t, State.reset.push16 0xCAFE = .ok () t := ⟨_, rfl⟩
theorem witness_PushOfAddStackCannotFail :
    ∃ t u, (stackAt 0x000F 4).pop16 = .ok 0 t ∧ t.pop16 = .ok 0x000F u := ⟨_, _, rfl, rfl⟩
/-- The word at 0, and one in the last word of memory. -/
theorem witness_NopOnlyAdvancesPc :
    ((atReset 0xAB00).status = .running ∧ (atReset 0xAB00).halt = false ∧
      (atReset 0xAB00).fetch = .ok (joinBytes 0xAB 0x00)) ∧
    ((start { resetRegs with pc := 0x1FFE } []).status = .running ∧
      (start { resetRegs with pc := 0x1FFE } []).halt = false ∧
      (start { resetRegs with pc := 0x1FFE } []).fetch = .ok (joinBytes 0x00 0x00) ∧
      ((start { resetRegs with pc := 0x1FFE } []).readReg .pc).toNat + 2 = State.reset.params.memSize ∧
      State.reset.params.memSize < 65536) := by decide
/-- The highest stack pointer that fits, the lowest that does not, and one beyond memory, with both values of
`W16_PARTIAL`. -/
theorem witness_PushPushesTheZeroExtendedImmediate :
    ((stackAt 0xFF01 0x1FFE).readReg .sp).toNat + 1 < State.reset.params.memSize ∧
    (State.reset.params.memSize ≤ ((stackAt 0xFF01 0x1FFF).readReg .sp).toNat + 1 ∧
      (stackAt 0xFF01 0x1FFF).params.w16Partial = .nothing) ∧
    ((lowByteLands (stackAt 0xFF01 0x1FFF)).params.memSize ≤
        ((lowByteLands (stackAt 0xFF01 0x1FFF)).readReg .sp).toNat + 1 ∧
      (lowByteLands (stackAt 0xFF01 0x1FFF)).params.w16Partial = .lowByte ∧
      ((lowByteLands (stackAt 0xFF01 0x1FFF)).readReg .sp).toNat + 1 = State.reset.params.memSize) ∧
    (lowByteLands (stackAt 0xFF01 0x2000)).params.memSize ≤
      ((lowByteLands (stackAt 0xFF01 0x2000)).readReg .sp).toNat := by decide
theorem witness_PushRegisterPushesTheRegister : fromCode defaultRegCode 4 = some .sp ∧
    ((stackAt 0x0403 0x1FFE).readReg .sp).toNat + 1 < State.reset.params.memSize ∧
    (State.reset.params.memSize ≤ ((stackAt 0x0403 0x1FFF).readReg .sp).toNat + 1 ∧
      (stackAt 0x0403 0x1FFF).params.w16Partial = .nothing) ∧
    ((lowByteLands (stackAt 0x0403 0x1FFF)).params.memSize ≤
        ((lowByteLands (stackAt 0x0403 0x1FFF)).readReg .sp).toNat + 1 ∧
      (lowByteLands (stackAt 0x0403 0x1FFF)).params.w16Partial = .lowByte ∧
      ((lowByteLands (stackAt 0x0403 0x1FFF)).readReg .sp).toNat + 1 = State.reset.params.memSize) ∧
    (lowByteLands (stackAt 0x0403 0x2000)).params.memSize ≤
      ((lowByteLands (stackAt 0x0403 0x2000)).readReg .sp).toNat := by decide
theorem witness_PopRegisterPopsIntoTheRegister : fromCode defaultRegCode 7 = some .flags ∧
    ((stackAt 0x0702 0x2000).readReg .sp - 2).toNat + 1 < State.reset.params.memSize ∧
    Reg.flags ≠ .sp ∧ State.reset.params.memSize ≤ ((stackAt 0x0702 0x2001).readReg .sp - 2).toNat + 1 ∧
    State.reset.params.memSize ≤ ((stackAt 0x0702 1).readReg .sp - 2).toNat + 1 := by decide
/-- Both words in memory; the first pop outside; the second one outside. -/
theorem witness_AddStackAddsTheTopTwoWords :
    (((stackAt 0x000F 0x2000).readReg .sp - 2).toNat + 1 < State.reset.params.memSize ∧
      ((stackAt 0x000F 0x2000).readReg .sp - 4).toNat + 1 < State.reset.params.memSize) ∧
    State.reset.params.memSize ≤ ((stackAt 0x000F 0x2001).readReg .sp - 2).toNat + 1 ∧
    (((stackAt 0x000F 2).readReg .sp - 2).toNat + 1 < State.reset.params.memSize ∧
      State.reset.params.memSize ≤ ((stackAt 0x000F 2).readReg .sp - 4).toNat + 1) := by decide
theorem witness_AddRegisterAddsIntoTheFirst :
    defaultRegCode[(7 : BitVec 4).toNat]? = some .flags ∧ defaultRegCode[(0 : BitVec 4).toNat]? = some .a := by decide
/-- An unbound code, a handler that succeeds, a handler that fails; and the word of each at the program counter. -/
theorem witness_SignalLooksUpItsCode :
    ((∀ h, (0x2A, h) ∉ (atReset 0x2A09).params.sigTable) ∧ (atReset 0x2A09).status = .running ∧
      (atReset 0x2A09).fetch = .ok 0x2A09 ∧ decode (atReset 0x2A09).params.regCode 0x2A09 = .ok (.signal 0x2A)) ∧
    ((withTable [(1, countHandler)] (atReset 0x0109)).params.WellFormed ∧
      (1, countHandler) ∈ (withTable [(1, countHandler)] (atReset 0x0109)).params.sigTable ∧
      (withTable [(1, countHandler)] (atReset 0x0109)).status = .running ∧
      (withTable [(1, countHandler)] (atReset 0x0109)).fetch = .ok 0x0109 ∧
      decode (withTable [(1, countHandler)] (atReset 0x0109)).params.regCode 0x0109 = .ok (.signal 1) ∧
      (∃ u, (withTable [(1, countHandler)] (atReset 0x0109)).runHandler countHandler = .ok () u) ∧
      ∃ u, (withTable [(1, countHandler)] (atReset 0x0109)).advancePc.runHandler countHandler = .ok () u ∧
        u.regs.a = 1) ∧
    ((withTable [(2, failHandler)] State.reset).params.WellFormed ∧
      (2, failHandler) ∈ (withTable [(2, failHandler)] State.reset).params.sigTable ∧
      ∃ u, (withTable [(2, failHandler)] State.reset).runHandler failHandler = .err .stackFault u) := by
  refine ⟨⟨fun h k => ?_, rfl, by decide, by decide⟩,
    ⟨by decide, by decide, rfl, by decide, by decide, ⟨_, rfl⟩, _, rfl, rfl⟩, ⟨by decide, by decide, _, rfl⟩⟩
  cases k with
  | tail _ h => exact nomatch h
theorem witness_SignalRunsItsHandler :
    ((withTable [(1, countHandler)] (atReset 0x0109)).status = .running ∧
      (withTable [(1, countHandler)] (atReset 0x0109)).fetch = .ok 0x0109 ∧
      decode (withTable [(1, countHandler)] (atReset 0x0109)).params.regCode 0x0109 = .ok (.signal 1) ∧
      sigLookup (withTable [(1, countHandler)] (atReset 0x0109)).params.sigTable 1 = some countHandler ∧
      (withTable [(1, countHandler)] (atReset 0x0109)).ControlInv ∧
      ∃ u, (withTable [(1, countHandler)] (atReset 0x0109)).advancePc.runHandler countHandler = .ok () u) ∧
    ((withTable [(2, failHandler)] (atReset 0x0209)).status = .running ∧
      (withTable [(2, failHandler)] (atReset 0x0209)).fetch = .ok 0x0209 ∧
      decode (withTable [(2, failHandler)] (atReset 0x0209)).params.regCode 0x0209 = .ok (.signal 2) ∧
      sigLookup (withTable [(2, failHandler)] (atReset 0x0209)).params.sigTable 2 = some failHandler ∧
      ∃ u, (withTable [(2, failHandler)] (atReset 0x0209)).advancePc.runHandler failHandler = .err .stackFault u) :=
  ⟨⟨rfl, by decide, by decide, by decide, by decide, _, rfl⟩, ⟨rfl, by decide, by decide, by decide, _, rfl⟩⟩
theorem witness_SignalOfTheHaltHandlerHalts : (atReset 0x0909).status = .running ∧ (atReset 0x0909).fetch = .ok 0x0909 ∧
    decode (atReset 0x0909).params.regCode 0x0909 = .ok (.signal 9) ∧
    sigLookup (atReset 0x0909).params.sigTable 9 = some haltHandler := by decide
theorem witness_RegisterInstructionsFrame : (∃ t, exec .nop State.reset = .next t) ∧
    ∃ t, exec (.addRegister .sp .a) State.reset = .next t := ⟨⟨_, rfl⟩, ⟨_, rfl⟩⟩
theorem witness_PushInstructionsFrame : (∃ t, exec (.push 255) (stackAt 0xFF01 0x1FFF) = .next t ∧
      (stackAt 0xFF01 0x1FFF).storeAddr (.push 255) = some 0x1FFF) ∧
    (∃ t, exec (.pushRegister .sp) (stackAt 0x0403 0x1FFE) = .next t ∧
      (stackAt 0x0403 0x1FFE).storeAddr (.pushRegister .sp) = some 0x1FFE) :=
  ⟨⟨_, rfl, rfl⟩, ⟨_, rfl, rfl⟩⟩
theorem witness_PopInstructionFrame : ∃ t, exec (.popRegister .flags) State.reset = .next t := ⟨_, rfl⟩
theorem witness_AddStackFrame : (∃ t, exec .addStack (stackAt 0x000F 0x1000) = .next t) ∧
    (stackAt 0x000F 0x1000).storeAddr .addStack = some 0x0FFC := ⟨⟨_, rfl⟩, rfl⟩
theorem witness_FlagsChangeOnlyAsAnOperand :
    ∃ t, step (stackAt 0x0702 0x1000) = .next t ∧ t.readReg .flags ≠ (stackAt 0x0702 0x1000).readReg .flags :=
  ⟨_, rfl, by decide⟩
theorem witness_CauseCodesFollowTheList : (State.reset.raise (.memoryFault 0x10000)).err = some (.memoryFault 0x10000) ∧
    (State.reset.raise (.unknownOpcode 5)).err = some (.unknownOpcode 5) ∧
    (State.reset.raise (.unknownRegister 8)).err = some (.unknownRegister 8) ∧
    (State.reset.raise (.unknownSignal 9)).err = some (.unknownSignal 9) ∧
    (State.reset.raise .stackFault).err = some .stackFault ∧ 0x10000 ≤ 0x10000 := by decide

end Sys2Proof.Tests
end

section
/-! The register lookup by name (10_state.md R39) and the values of the state after reset (R37). -/

namespace Sys2Proof

/-- A name that is found is the name of the role it is found for: the search tests for it. -/
theorem name_of_fromName {name : String} {r : Reg} (h : fromName name = some r) : r.name = name :=
  beq_iff_eq.mp (List.find?_some (p := fun q : Reg => q.name == name) h)

/-- The search meets every role, and no role listed before it has its name. -/
@[simp] theorem fromName_name (r : Reg) : fromName r.name = some r := by cases r <;> rfl

/-- Settles O6: what is found bears the name asked for, and each role is found by its own name. -/
theorem fromNameIsTheCanonicalName : Obligations.FromNameIsTheCanonicalName := by
  intro name r
  constructor
  · intro h
    exact (name_of_fromName h).symm
  · rintro rfl
    exact fromName_name r

end Sys2Proof

namespace Sys2Proof.Machine

/-- R12, R37: only the stack pointer starts at a value other than zero. -/
@[simp] theorem State.readReg_resetWith (p : Params) (r : Reg) :
    (State.resetWith p).readReg r = if r = .sp then 0x1000 else 0x0000 := by cases r <;> rfl

@[simp] theorem State.resetWith_mem (p : Params) : (State.resetWith p).mem = [] := rfl
@[simp] theorem State.resetWith_halt (p : Params) : (State.resetWith p).halt = false := rfl
@[simp] theorem State.resetWith_status (p : Params) : (State.resetWith p).status = .running := rfl
@[simp] theorem State.resetWith_err (p : Params) : (State.resetWith p).err = none := rfl
@[simp] theorem State.resetWith_params (p : Params) : (State.resetWith p).params = p := rfl

/-- Every byte is zero after reset: the memory lists none (R34). -/
theorem State.read_resetWith_mem (p : Params) (a : Nat) : Memory.read (State.resetWith p).mem a = 0x00 :=
  Memory.read_absent (by simp)

/-- Settles O18, a lemma for each row of the table of R37. -/
theorem resetLeavesTheValuesOfTheTable : Obligations.ResetLeavesTheValuesOfTheTable := fun p =>
  ⟨State.readReg_resetWith p, State.read_resetWith_mem p, State.resetWith_halt p, State.resetWith_status p,
    State.resetWith_err p, State.resetWith_params p⟩

end Sys2Proof.Machine
end

section
/-! The memory primitives (20_memory.md): a byte access, the number of a word read, and a read after a write. -/

namespace Sys2Proof.Machine

/-- A byte stored at `a` changes what is read at `a` alone (R52). -/
theorem State.sameMemExcept_write (s : State) (a : Nat) (b : Byte) :
    s.SameMemExcept [a] (s.setMem (Memory.write s.mem a b)) := fun _ h =>
  Memory.read_write_ne s.mem b fun heq => h (List.mem_singleton.mpr heq)

/-- No change of memory reaches the control state. -/
theorem State.sameControl_setMem (s : State) (m : Memory) : s.SameControl (s.setMem m) :=
  ⟨rfl, rfl, rfl, rfl, rfl⟩

/-- The number of a joined word: the low byte counts ones, the high byte counts 256s (R53). -/
theorem joinBytes_toNat (hi lo : Byte) : (joinBytes hi lo).toNat = lo.toNat + 256 * hi.toNat := by
  have happend : (joinBytes hi lo).toNat = hi.toNat <<< 8 ||| lo.toNat := BitVec.toNat_append hi lo
  rw [happend, ← Nat.shiftLeft_add_eq_or_of_lt lo.isLt, Nat.shiftLeft_eq]
  omega

/-- Memory after a 16-bit write at `a` (R54). -/
def Memory.writeWord (m : Memory) (a : Nat) (v : Word) : Memory :=
  Memory.write (Memory.write m a (lowByte v)) (a + 1) (highByte v)

theorem State.memWrite16_writeWord (s : State) {a : Nat} (v : Word) (h : a + 1 < s.params.memSize) :
    s.memWrite16 a v = .ok () (s.setMem (Memory.writeWord s.mem a v)) :=
  State.memWrite16_of_fits s a v h

@[simp] theorem Memory.read_writeWord_low (m : Memory) (a : Nat) (v : Word) :
    Memory.read (Memory.writeWord m a v) a = lowByte v :=
  (Memory.read_write_ne _ _ (Nat.succ_ne_self a).symm).trans (Memory.read_write_self m a _)

@[simp] theorem Memory.read_writeWord_high (m : Memory) (a : Nat) (v : Word) :
    Memory.read (Memory.writeWord m a v) (a + 1) = highByte v :=
  Memory.read_write_self _ _ _

/-- R55 for words: both bytes are in range and read as written, so the word joined from them is the one written. -/
theorem State.memRead16_setMem_writeWord (s : State) {a : Nat} (v : Word) (h : a + 1 < s.params.memSize) :
    (s.setMem (Memory.writeWord s.mem a v)).memRead16 a = .ok v := by
  rw [State.memRead16_of_fits (s.setMem (Memory.writeWord s.mem a v)) a h, State.setMem_mem,
    Memory.read_writeWord_high, Memory.read_writeWord_low, joinBytes_highByte_lowByte]

/-- R55 for bytes: a byte in range reads as written. -/
theorem State.memRead8_setMem_write (s : State) {a : Nat} (b : Byte) (h : a < s.params.memSize) :
    (s.setMem (Memory.write s.mem a b)).memRead8 a = .ok b := by
  rw [State.memRead8_of_fits (s.setMem (Memory.write s.mem a b)) a h, State.setMem_mem, Memory.read_write_self]

/-- A 16-bit write whose high byte is out of range fails, whatever `W16_PARTIAL` says (R54). -/
theorem State.memWrite16_of_last (s : State) {a : Nat} (v : Word) (h : a + 1 = s.params.memSize) :
    s.memWrite16 a v = .err (.memoryFault (a + 1)) (s.partialWrite a v) := by
  rw [State.memWrite16_of_not_fits s a v (by omega), if_pos (by omega)]

/-- Settles O11, by the two cases of each byte primitive and the frame of a write. -/
theorem byteAccessesAreBoundsChecked : Obligations.ByteAccessesAreBoundsChecked := by
  intro s a b
  refine ⟨State.memRead8_of_fits s a, fun h => State.memRead8_of_not_fits s a h.not_gt, fun h => ?_,
    fun h => State.memWrite8_of_not_fits s a b h.not_gt⟩
  exact ⟨_, State.memWrite8_of_fits s a b h, Memory.read_write_self s.mem a b, s.sameMemExcept_write a b, rfl,
    s.sameControl_setMem _⟩

/-- Settles O12, by the number of a joined word and the two ways a word read fails. -/
theorem wordReadIsLittleEndian : Obligations.WordReadIsLittleEndian := by
  intro s a
  refine ⟨fun h => ⟨_, State.memRead16_of_fits s a h, joinBytes_toNat _ _⟩, fun h => ?_, fun hlow hhigh => ?_⟩
  · rw [State.memRead16_of_not_fits s a (by omega), if_neg h.not_gt]
  · rw [State.memRead16_of_not_fits s a hhigh.not_gt, if_pos hlow]

/-- Settles O14: the law of R55 for words and for bytes, and its boundary. -/
theorem readAfterWriteGivesTheValueWritten : Obligations.ReadAfterWriteGivesTheValueWritten := fun s =>
  ⟨fun _ v h => ⟨_, s.memWrite16_writeWord v h, s.memRead16_setMem_writeWord v h⟩,
    fun a b h => ⟨_, State.memWrite8_of_fits s a b h, s.memRead8_setMem_write b h⟩,
    fun _ v h => ⟨_, _, s.memWrite16_of_last v h⟩,
    fun b => ⟨_, _, State.memWrite8_of_not_fits s _ b (lt_irrefl _)⟩,
    ⟨_, State.memRead8_of_not_fits s _ (lt_irrefl _)⟩⟩

end Sys2Proof.Machine
end

section
/-! The encoding (30_encoding.md): the fields of a word as numbers, the decoder opcode by opcode, and its inverse. -/

namespace Sys2Proof

open Sys2Proof.Machine

/-! ### The fields of a word and of an argument byte, as numbers (R81 to R83, R89) -/

theorem opcodeField_toNat (w : Word) : (opcodeField w).toNat = w.toNat % 256 := by
  simp [opcodeField, lowByte]

theorem argField_toNat (w : Word) : (argField w).toNat = w.toNat / 256 := by
  rw [argField, highByte, BitVec.extractLsb'_toNat, Nat.shiftRight_eq_div_pow]
  omega

theorem highNibble_toNat (arg : Byte) : (highNibble arg).toNat = arg.toNat / 16 := by
  rw [highNibble, BitVec.toNat_setWidth, BitVec.extractLsb'_toNat, Nat.shiftRight_eq_div_pow]
  omega

theorem lowNibble_toNat (arg : Byte) : (lowNibble arg).toNat = arg.toNat % 16 := by
  rw [lowNibble, BitVec.toNat_setWidth, BitVec.extractLsb'_toNat, Nat.shiftRight_zero]
  omega

/-- The opcode, found from the number of its word. -/
theorem opcodeField_eq_of_mod {w : Word} {n : Nat} (h : w.toNat % 256 = n) : opcodeField w = BitVec.ofNat 8 n := by
  rw [← h, ← opcodeField_toNat, BitVec.ofNat_toNat, BitVec.setWidth_eq]

theorem argField_eq (w : Word) : argField w = BitVec.ofNat 8 (w.toNat / 256) := by
  rw [← argField_toNat, BitVec.ofNat_toNat, BitVec.setWidth_eq]

@[simp] theorem opcodeField_encode (rc : List Reg) (i : Instr) : opcodeField (encode rc i) = i.opcode :=
  lowByte_joinBytes _ _

@[simp] theorem argField_encode (rc : List Reg) (i : Instr) : argField (encode rc i) = i.argument rc :=
  highByte_joinBytes _ _

/-! ### The register operands (R38, R88, R89) -/

section Operands

variable {rc : List Reg} {c : Byte} {n : Nat}

theorem resolveReg_of_some {r : Reg} (hc : c.toNat = n) (hr : rc[n]? = some r) : resolveReg rc c = .ok r := by
  simp [resolveReg, fromCode, hc, hr]

theorem resolveReg_of_none (hc : c.toNat = n) (hr : rc[n]? = none) :
    resolveReg rc c = .error (.unknownRegister (BitVec.ofNat 8 n)) := by
  subst hc
  simp [resolveReg, fromCode, hr]

theorem decodeOneReg_of_ok {r : Reg} (mk : Reg → Instr) (h : resolveReg rc c = .ok r) :
    decodeOneReg rc c mk = .ok (mk r) := by
  simp [decodeOneReg, h]

theorem decodeOneReg_of_error {e : Error} (mk : Reg → Instr) (h : resolveReg rc c = .error e) :
    decodeOneReg rc c mk = .error e := by
  simp [decodeOneReg, h]

theorem decodeTwoRegs_of_ok {r1 r2 : Reg} (mk : Reg → Reg → Instr) (h1 : resolveReg rc (highNibble c) = .ok r1)
    (h2 : resolveReg rc (lowNibble c) = .ok r2) : decodeTwoRegs rc c mk = .ok (mk r1 r2) := by
  simp [decodeTwoRegs, h1, h2]

/-- The high nibble is resolved first: its error is the one reported (R89). -/
theorem decodeTwoRegs_of_high_error {e : Error} (mk : Reg → Reg → Instr)
    (h1 : resolveReg rc (highNibble c) = .error e) : decodeTwoRegs rc c mk = .error e := by
  simp [decodeTwoRegs, h1]

theorem decodeTwoRegs_of_low_error {r1 : Reg} {e : Error} (mk : Reg → Reg → Instr)
    (h1 : resolveReg rc (highNibble c) = .ok r1) (h2 : resolveReg rc (lowNibble c) = .error e) :
    decodeTwoRegs rc c mk = .error e := by
  simp [decodeTwoRegs, h1, h2]

/-- Formats R by the number of the code: the table's role, or the code reported. -/
theorem decodeOneReg_eq_of_toNat (mk : Reg → Instr) (hc : c.toNat = n) :
    decodeOneReg rc c mk = match rc[n]? with
      | some r => .ok (mk r)
      | none => .error (.unknownRegister (BitVec.ofNat 8 n)) := by
  cases hr : rc[n]? with
  | some r => exact decodeOneReg_of_ok mk (resolveReg_of_some hc hr)
  | none => exact decodeOneReg_of_error mk (resolveReg_of_none hc hr)

/-- Format RR by the number of the byte: first the code in the high nibble, then the one in the low nibble. -/
theorem decodeTwoRegs_eq_of_toNat (mk : Reg → Reg → Instr) (hc : c.toNat = n) :
    decodeTwoRegs rc c mk = match rc[n / 16]? with
      | none => .error (.unknownRegister (BitVec.ofNat 8 (n / 16)))
      | some r1 => match rc[n % 16]? with
        | none => .error (.unknownRegister (BitVec.ofNat 8 (n % 16)))
        | some r2 => .ok (mk r1 r2) := by
  have hhigh : (highNibble c).toNat = n / 16 := by rw [highNibble_toNat, hc]
  have hlow : (lowNibble c).toNat = n % 16 := by rw [lowNibble_toNat, hc]
  cases h1 : rc[n / 16]? with
  | none => exact decodeTwoRegs_of_high_error mk (resolveReg_of_none hhigh h1)
  | some r1 =>
    have hr1 := resolveReg_of_some hhigh h1
    cases h2 : rc[n % 16]? with
    | none => exact decodeTwoRegs_of_low_error mk hr1 (resolveReg_of_none hlow h2)
    | some r2 => exact decodeTwoRegs_of_ok mk hr1 (resolveReg_of_some hlow h2)

end Operands

/-! ### The decoder, opcode by opcode (R84 to R87) -/

section Decoder

variable {rc : List Reg} {w : Word}

theorem decode_of_opcode_nop (h : opcodeField w = 0x00) : decode rc w = .ok .nop := by
  simp [decode, h]

theorem decode_of_opcode_push (h : opcodeField w = 0x01) : decode rc w = .ok (.push (argField w)) := by
  simp [decode, h]

theorem decode_of_opcode_popRegister (h : opcodeField w = 0x02) :
    decode rc w = decodeOneReg rc (argField w) .popRegister := by
  simp [decode, h]

theorem decode_of_opcode_pushRegister (h : opcodeField w = 0x03) :
    decode rc w = decodeOneReg rc (argField w) .pushRegister := by
  simp [decode, h]

theorem decode_of_opcode_addRegister (h : opcodeField w = 0x04) :
    decode rc w = decodeTwoRegs rc (argField w) .addRegister := by
  simp [decode, h]

theorem decode_of_opcode_signal (h : opcodeField w = 0x09) : decode rc w = .ok (.signal (argField w)) := by
  simp [decode, h]

theorem decode_of_opcode_addStack (h : opcodeField w = 0x0F) : decode rc w = .ok .addStack := by
  simp [decode, h]

/-- An opcode outside the table is an error before the argument is looked at (R86). -/
theorem decode_of_opcode_unknown (h : (opcodeField w).toNat ∉ [0x00, 0x01, 0x02, 0x03, 0x04, 0x09, 0x0F]) :
    decode rc w = .error (.unknownOpcode (opcodeField w)) := by
  have hne (k : Byte) (hk : k.toNat ∈ [0x00, 0x01, 0x02, 0x03, 0x04, 0x09, 0x0F]) : opcodeField w ≠ k :=
    fun heq => h (heq ▸ hk)
  simp [decode, hne]

end Decoder

/-- Settles O3, an arm of the decoder for each opcode; the register operands are read by their numbers. -/
theorem decodeFollowsTheOpcodeTable : Obligations.DecodeFollowsTheOpcodeTable := by
  rintro rc w _ _ rfl rfl
  have harg := argField_toNat w
  refine ⟨fun h => ?nop, fun h => ?push, fun h => ?popRegister, fun h => ?pushRegister, fun h => ?addRegister,
    fun h => ?signal, fun h => ?addStack, fun h => ?unknown⟩
  case nop => exact decode_of_opcode_nop (opcodeField_eq_of_mod h)
  case push => rw [decode_of_opcode_push (opcodeField_eq_of_mod h), argField_eq]
  case popRegister =>
    exact (decode_of_opcode_popRegister (opcodeField_eq_of_mod h)).trans (decodeOneReg_eq_of_toNat _ harg)
  case pushRegister =>
    exact (decode_of_opcode_pushRegister (opcodeField_eq_of_mod h)).trans (decodeOneReg_eq_of_toNat _ harg)
  case addRegister =>
    exact (decode_of_opcode_addRegister (opcodeField_eq_of_mod h)).trans (decodeTwoRegs_eq_of_toNat _ harg)
  case signal => rw [decode_of_opcode_signal (opcodeField_eq_of_mod h), argField_eq]
  case addStack => exact decode_of_opcode_addStack (opcodeField_eq_of_mod h)
  case unknown =>
    rw [decode_of_opcode_unknown (by rwa [opcodeField_toNat]), opcodeField_eq_of_mod rfl]

/-! ### Decoding what was encoded (R93, R94) -/

/-- A bijective table lists every role: it has as many entries as there are roles, all different (R22). -/
theorem RegCode.WellFormed.mem {rc : List Reg} (h : RegCode.WellFormed rc) (r : Reg) : r ∈ rc := by
  obtain ⟨hlen, hnodup⟩ := h
  have hall (q : Reg) : q ∈ [Reg.a, .b, .c, .m, .sp, .pc, .bp, .flags] := by cases q <;> decide
  have hperm := (hnodup.subperm fun q _ => hall q).perm_of_length_le hlen.ge
  exact hperm.mem_iff.mpr (hall r)

/-- The table gives the role back at the role's own code (R22). -/
theorem getElem?_regCodeOf {rc : List Reg} {r : Reg} (h : r ∈ rc) : rc[regCodeOf rc r]? = some r :=
  List.getElem?_idxOf h

theorem regCodeOf_lt_length {rc : List Reg} {r : Reg} (h : r ∈ rc) : regCodeOf rc r < rc.length :=
  List.idxOf_lt_length_of_mem h

/-- The argument byte of format RR as a number: the first code counts 16s (R93). -/
theorem toNat_append_nibbles {m n : Nat} (hm : m < 16) (hn : n < 16) :
    (BitVec.ofNat 4 m ++ BitVec.ofNat 4 n).toNat = 16 * m + n := by
  rw [BitVec.toNat_append, BitVec.toNat_ofNat, BitVec.toNat_ofNat, Nat.mod_eq_of_lt hm, Nat.mod_eq_of_lt hn,
    ← Nat.shiftLeft_add_eq_or_of_lt hn, Nat.shiftLeft_eq]
  omega

/-- A one-register argument resolves to the register it was made from: the code fits in the byte. -/
theorem resolveReg_regCodeOf {rc : List Reg} {r : Reg} (hlen : rc.length ≤ 16) (h : r ∈ rc) :
    resolveReg rc (BitVec.ofNat 8 (regCodeOf rc r)) = .ok r := by
  have hlt : regCodeOf rc r < 2 ^ 8 := by
    have := regCodeOf_lt_length h
    omega
  exact resolveReg_of_some ((BitVec.toNat_ofNat _ _).trans (Nat.mod_eq_of_lt hlt)) (getElem?_regCodeOf h)

/-- The two nibbles of an argument resolve to the registers it was made from: a code below 16 fits in a nibble. -/
theorem decodeTwoRegs_regCodeOf {rc : List Reg} {r1 r2 : Reg} (mk : Reg → Reg → Instr) (hlen : rc.length ≤ 16)
    (h1 : r1 ∈ rc) (h2 : r2 ∈ rc) :
    decodeTwoRegs rc (BitVec.ofNat 4 (regCodeOf rc r1) ++ BitVec.ofNat 4 (regCodeOf rc r2)) mk = .ok (mk r1 r2) := by
  have hlt1 := regCodeOf_lt_length h1
  have hlt2 := regCodeOf_lt_length h2
  have harg := toNat_append_nibbles (hlt1.trans_le hlen) (hlt2.trans_le hlen)
  refine decodeTwoRegs_of_ok mk (resolveReg_of_some ?_ (getElem?_regCodeOf h1))
    (resolveReg_of_some ?_ (getElem?_regCodeOf h2))
  · rw [highNibble_toNat, harg]
    omega
  · rw [lowNibble_toNat, harg]
    omega

/-- R94 for an instruction whose registers a table of at most sixteen roles lists. -/
theorem decode_encode {rc : List Reg} {i : Instr} (hlen : rc.length ≤ 16) (hi : i.WellFormed rc) :
    decode rc (encode rc i) = .ok i := by
  have hop := opcodeField_encode rc i
  have harg := argField_encode rc i
  cases i with
  | nop => exact decode_of_opcode_nop hop
  | push v => rw [decode_of_opcode_push hop, harg, Instr.argument]
  | popRegister r =>
    have hr : r ∈ rc := hi r (by simp [Instr.regOperands])
    rw [decode_of_opcode_popRegister hop, harg]
    exact decodeOneReg_of_ok _ (resolveReg_regCodeOf hlen hr)
  | pushRegister r =>
    have hr : r ∈ rc := hi r (by simp [Instr.regOperands])
    rw [decode_of_opcode_pushRegister hop, harg]
    exact decodeOneReg_of_ok _ (resolveReg_regCodeOf hlen hr)
  | addRegister r1 r2 =>
    have hr1 : r1 ∈ rc := hi r1 (by simp [Instr.regOperands])
    have hr2 : r2 ∈ rc := hi r2 (by simp [Instr.regOperands])
    rw [decode_of_opcode_addRegister hop, harg]
    exact decodeTwoRegs_regCodeOf _ hlen hr1 hr2
  | signal code => rw [decode_of_opcode_signal hop, harg, Instr.argument]
  | addStack => exact decode_of_opcode_addStack hop

/-- Settles O1: a bijective table has eight roles and lists them all, so the first clause is a case of the second. -/
theorem decodeOfEncodeIsTheInstruction : Obligations.DecodeOfEncodeIsTheInstruction :=
  ⟨fun _ hrc _ => decode_encode (by rw [hrc.1]; decide) fun r _ => hrc.mem r, fun _ hlen _ => decode_encode hlen⟩

end Sys2Proof

namespace Sys2Proof.Machine

/-- Settles O27: the fetch joins the two bytes, and the fields of the word take them apart again. -/
theorem fetchReadsTheWordAtPc : Obligations.FetchReadsTheWordAtPc := fun s h =>
  ⟨_, s.fetch_of_fits h, lowByte_joinBytes _ _, highByte_joinBytes _ _⟩

end Sys2Proof.Machine
end

section
/-! The two ways a step of a running core ends before its instruction runs (40_step_sequencing.md R112, R114). -/

namespace Sys2Proof.Machine

/-- R117: a raise records its error and leaves the rest of the control state. -/
theorem State.raised_raise (s : State) (e : Error) : s.Raised e (s.raise e) := ⟨rfl, rfl, rfl, rfl, rfl⟩

/-- The advance leaves the control state, so a raise after it is also one from the state before it. -/
theorem State.raised_raise_advancePc (s : State) (e : Error) : s.Raised e (s.advancePc.raise e) :=
  State.raised_raise s.advancePc e

/-- R113: the advance writes no register but `PC`. -/
theorem State.sameRegsExcept_advancePc (s : State) : s.SameRegsExcept [.pc] s.advancePc := fun _ h =>
  s.readReg_advancePc_ne (List.ne_of_not_mem_cons h)

theorem step_of_running {s : State} (hs : s.status = .running) : step s = s.stepRunning := by
  rw [step, hs]

/-- R112: a fetch error is raised in the state the step began in. -/
theorem step_of_fetch_error {s : State} {e : Error} (hs : s.status = .running) (hf : s.fetch = .error e) :
    step s = .next (s.raise e) := by
  rw [step_of_running hs, State.stepRunning, hf]

/-- R114: a decode error is raised in the state with `PC` advanced. -/
theorem step_of_decode_error {s : State} {w : Word} {e : Error} (hs : s.status = .running) (hf : s.fetch = .ok w)
    (hd : decode s.params.regCode w = .error e) : step s = .next (s.advancePc.raise e) := by
  have hdecode : s.advancePc.decodeWord w = .error e := hd
  simp only [step_of_running hs, State.stepRunning, hf, hdecode]

/-- Settles O28: the fetch succeeds or fails by the room left at `PC`, and its error is raised before the advance. -/
theorem fetchFaultKeepsPc : Obligations.FetchFaultKeepsPc := by
  intro s hs
  refine ⟨fun hout => ?_, fun hin => s.fetch_of_fits hin⟩
  have hfetch := s.fetch_of_not_fits hout.not_gt
  exact ⟨_, step_of_fetch_error hs hfetch, rfl, rfl, s.raised_raise _⟩

/-- Settles O29: the error is raised after the advance, which has written `PC` alone. -/
theorem decodeFaultLeavesPcAdvanced : Obligations.DecodeFaultLeavesPcAdvanced := by
  intro s w e hs hfetch hdecode
  exact ⟨_, step_of_decode_error hs hfetch hdecode, s.readReg_advancePc_pc, s.sameRegsExcept_advancePc, rfl,
    s.raised_raise_advancePc e⟩

end Sys2Proof.Machine
end

section
/-! The stack primitives and the instructions on them: a pop after a push, `PopRegister`, and `Nop`
(41_nop_and_stack.md). -/

namespace Sys2Proof

open Sys2Proof.Machine

@[simp] theorem opcodeField_joinBytes (arg op : Byte) : opcodeField (joinBytes arg op) = op := lowByte_joinBytes arg op

@[simp] theorem argField_joinBytes (arg op : Byte) : argField (joinBytes arg op) = arg := highByte_joinBytes arg op

/-- R87: the argument byte of `Nop` is ignored. -/
theorem decode_joinBytes_nop (rc : List Reg) (arg : Byte) : decode rc (joinBytes arg 0x00) = .ok .nop :=
  decode_of_opcode_nop (opcodeField_joinBytes arg 0x00)

/-- R93: both bytes of an encoded `Nop` are zero (D4). -/
theorem encode_nop (rc : List Reg) : encode rc .nop = 0x0000 :=
  (by decide : joinBytes 0x00 0x00 = 0x0000)

/-- R88: the argument byte of `PopRegister` is the code of its register. -/
theorem decode_joinBytes_popRegister {rc : List Reg} {c : Byte} {r : Reg} (h : fromCode rc c = some r) :
    decode rc (joinBytes c 0x02) = .ok (.popRegister r) := by
  rw [decode_of_opcode_popRegister (opcodeField_joinBytes c 0x02), argField_joinBytes]
  exact decodeOneReg_of_ok .popRegister (resolveReg_of_some rfl h)

end Sys2Proof

namespace Sys2Proof.Machine

/-! ### The frame of a register write -/

theorem State.SameRegsExcept.refl (rs : List Reg) (s : State) : s.SameRegsExcept rs s := fun _ _ => rfl

/-- A write of a listed register stays within the frame. -/
theorem State.SameRegsExcept.writeReg {rs : List Reg} {s t : State} {r : Reg} (h : s.SameRegsExcept rs t)
    (hr : r ∈ rs) (v : Word) : s.SameRegsExcept rs (t.writeReg r v) := fun q hq =>
  (t.readReg_writeReg_ne v (ne_of_mem_of_not_mem hr hq).symm).trans (h q hq)

/-- No register write reaches the control state. -/
theorem State.sameControl_writeReg (s : State) (r : Reg) (v : Word) : s.SameControl (s.writeReg r v) :=
  ⟨rfl, rfl, rfl, rfl, rfl⟩

/-! ### The stack primitives (R130, R131) -/

/-- The word a 16-bit write stored is the one in memory there (R55). -/
@[simp] theorem State.wordAt_setMem_writeWord (s : State) (a : Nat) (v : Word) :
    (s.setMem (Memory.writeWord s.mem a v)).wordAt a = v := by
  rw [State.wordAt, State.setMem_mem, Memory.read_writeWord_high, Memory.read_writeWord_low,
    joinBytes_highByte_lowByte]

@[simp] theorem State.wordAt_writeReg (s : State) (r : Reg) (v : Word) (a : Nat) :
    (s.writeReg r v).wordAt a = s.wordAt a := rfl

/-- A push succeeds exactly where its word fits, and leaves the word stored and `SP` two more. -/
theorem State.push16_eq_ok {s t : State} {v : Word} :
    s.push16 v = .ok () t ↔ s.pushAddr.toNat + 1 < s.params.memSize ∧
      t = (s.setMem (Memory.writeWord s.mem s.pushAddr.toNat v)).writeReg .sp (add16 s.pushAddr 2) := by
  by_cases h : s.pushAddr.toNat + 1 < s.params.memSize
  · rw [State.push16_of_fits s v h, Result.ok.injEq, Memory.writeWord]
    simp [h, eq_comm]
  · simp [State.push16_of_not_fits s v h, h]

/-- R131, by the address the pop reads. -/
theorem State.pop16_of_popAddr {s : State} {a : Word} (ha : s.popAddr = a) (h : a.toNat + 1 < s.params.memSize) :
    s.pop16 = .ok (s.wordAt a.toNat) (s.writeReg .sp a) := by
  subst ha
  exact State.pop16_of_fits s h

theorem State.popAddr_writeReg_add16 (s : State) (a : Word) :
    (s.writeReg .sp (add16 a 2)).popAddr = a := by
  rw [State.popAddr, State.readReg_writeReg_self, sub16_add16]

/-- R132: the pop reads where the push wrote, and undoes all of it but the word stored. -/
theorem State.pop16_of_push16 {s t : State} {v : Word} (h : s.push16 v = .ok () t) :
    t.pop16 = .ok v (s.setMem (Memory.writeWord s.mem s.pushAddr.toNat v)) := by
  obtain ⟨hfits, rfl⟩ := State.push16_eq_ok.mp h
  have hpop := State.popAddr_writeReg_add16 (s.setMem (Memory.writeWord s.mem s.pushAddr.toNat v)) s.pushAddr
  have hrestore (m : Memory) : (s.setMem m).writeReg .sp s.pushAddr = s.setMem m :=
    (s.setMem m).writeReg_readReg_self .sp
  rw [State.pop16_of_popAddr hpop hfits, State.wordAt_writeReg,
    State.wordAt_setMem_writeWord, State.writeReg_writeReg, hrestore]

/-- Settles O41: `SP` is not written by the state that differs from `s` in memory alone. -/
theorem popAfterPushGivesTheWordPushed : Obligations.PopAfterPushGivesTheWordPushed := fun s _ _ h =>
  ⟨_, State.pop16_of_push16 h, s.readReg_setMem .sp _⟩

/-! ### `PopRegister` (R135) -/

theorem exec_popRegister_of_fits {s : State} (r : Reg) (h : s.popAddr.toNat + 1 < s.params.memSize) :
    exec (.popRegister r) s =
      .next ((s.writeReg .sp s.popAddr).writeReg r (s.wordAt s.popAddr.toNat)) := by
  rw [exec, execPopRegister, State.pop16_of_popAddr rfl h]
  rfl

theorem exec_popRegister_of_not_fits {s : State} (r : Reg) (h : ¬ s.popAddr.toNat + 1 < s.params.memSize) :
    exec (.popRegister r) s = .next (s.raise .stackFault) := by
  rw [exec, execPopRegister, State.pop16_of_not_fits s h]
  rfl

/-- Settles O46, by the two ways the pop ends; the write of `r` comes after that of `SP`. -/
theorem popRegisterPopsIntoTheRegister : Obligations.PopRegisterPopsIntoTheRegister := by
  rintro s rc r a (rfl : a = s.popAddr)
  refine ⟨fun c hc => decode_joinBytes_popRegister hc, fun hin => ?_, fun hout => ?_⟩
  · refine ⟨_, exec_popRegister_of_fits r hin, State.readReg_writeReg_self .., fun hr => ?_, ?_, rfl,
      s.sameControl_writeReg .sp s.popAddr⟩
    · rw [State.readReg_writeReg_ne _ _ hr.symm, State.readReg_writeReg_self]
    · exact ((State.SameRegsExcept.refl _ s).writeReg (by simp) _).writeReg (by simp) _
  · exact ⟨_, exec_popRegister_of_not_fits r hout.not_gt, rfl, rfl, s.raised_raise .stackFault⟩

/-! ### `Nop` (R133) -/

theorem exec_nop (s : State) : exec .nop s = .next s := rfl

/-- R116: with the halt flag clear the commit does nothing. -/
theorem State.commit_of_halt_false {s : State} (h : s.halt = false) : s.commit = s := by
  rw [State.commit, if_neg (by simp [h])]

/-- R115, R116: a decoded instruction runs after the advance and is then committed. -/
theorem step_of_decode_ok {s u : State} {w : Word} {i : Instr} (hs : s.status = .running) (hf : s.fetch = .ok w)
    (hd : decode s.params.regCode w = .ok i) (hu : exec i s.advancePc = .next u) : step s = .next u.commit := by
  have hdecode : s.advancePc.decodeWord w = .ok i := hd
  simp only [step_of_running hs, State.stepRunning, hf, hdecode]
  exact State.execAndCommit_eq_next.mpr ⟨u, hu, rfl⟩

theorem step_of_fetch_nop {s : State} {arg : Byte} (hs : s.status = .running) (hh : s.halt = false)
    (hf : s.fetch = .ok (joinBytes arg 0x00)) : step s = .next s.advancePc := by
  have hcommit : s.advancePc.commit = s.advancePc := State.commit_of_halt_false hh
  rw [step_of_decode_ok hs hf (decode_joinBytes_nop _ arg) (exec_nop _), hcommit]

/-- R112: a step with `PC` at the end of memory faults there. -/
theorem step_of_pc_eq_memSize {s : State} (hs : s.status = .running)
    (hpc : (s.readReg .pc).toNat = s.params.memSize) : step s = .next (s.raise (.memoryFault s.params.memSize)) := by
  have hfetch := s.fetch_of_not_fits (by omega)
  rw [hpc] at hfetch
  exact step_of_fetch_error hs hfetch

/-- Below 65536 the advance does not wrap (R27). -/
theorem State.readReg_advancePc_pc_toNat {s : State} {n : Nat} (h : (s.readReg .pc).toNat + 2 = n)
    (hn : n < 65536) : (s.advancePc.readReg .pc).toNat = n := by
  rw [State.readReg_advancePc_pc, add16_toNat, ← h]
  exact Nat.mod_eq_of_lt (h ▸ hn)

/-- Settles O43: the step of a `Nop` is the advance, and from the last word the advance ends at `MEM_SIZE`. -/
theorem nopOnlyAdvancesPc : Obligations.NopOnlyAdvancesPc := fun s rc arg =>
  ⟨decode_joinBytes_nop rc arg, encode_nop rc, exec_nop s, fun hs hh hf =>
    ⟨step_of_fetch_nop hs hh hf, fun hlast hsize =>
      step_of_pc_eq_memSize (s := s.advancePc) hs (State.readReg_advancePc_pc_toNat hlast hsize)⟩⟩

end Sys2Proof.Machine
end

section
/-! `AddRegister` (42_add.md R152): its operands are the two nibbles of the argument byte (R89), and it writes one
register. -/

namespace Sys2Proof

open Sys2Proof.Machine

/-- R89: the first code of format RR is the high nibble of the argument byte. -/
theorem highNibble_append_toNat (c1 c2 : BitVec 4) : (highNibble (c1 ++ c2)).toNat = c1.toNat := by
  rw [highNibble, BitVec.extractLsb'_append_eq_left, BitVec.toNat_setWidth_of_le (by decide)]

/-- R89: the second code of format RR is the low nibble of the argument byte. -/
theorem lowNibble_append_toNat (c1 c2 : BitVec 4) : (lowNibble (c1 ++ c2)).toNat = c2.toNat := by
  rw [lowNibble, BitVec.extractLsb'_append_eq_right, BitVec.toNat_setWidth_of_le (by decide)]

theorem decode_joinBytes_addRegister {rc : List Reg} {c1 c2 : BitVec 4} {r1 r2 : Reg} (h1 : rc[c1.toNat]? = some r1)
    (h2 : rc[c2.toNat]? = some r2) : decode rc (joinBytes (c1 ++ c2) 0x04) = .ok (.addRegister r1 r2) := by
  rw [decode_of_opcode_addRegister (opcodeField_joinBytes _ 0x04), argField_joinBytes]
  exact decodeTwoRegs_of_ok .addRegister (resolveReg_of_some (highNibble_append_toNat c1 c2) h1)
    (resolveReg_of_some (lowNibble_append_toNat c1 c2) h2)

end Sys2Proof

namespace Sys2Proof.Machine

/-- R152: both registers are read in the state before the write. -/
theorem exec_addRegister (r1 r2 : Reg) (s : State) :
    exec (.addRegister r1 r2) s = .next (s.writeReg r1 (add16 (s.readReg r1) (s.readReg r2))) := rfl

/-- Settles O48: the instruction is one register write, of a sum computed before it, so `r1 = r2` is no case apart. -/
theorem addRegisterAddsIntoTheFirst : Obligations.AddRegisterAddsIntoTheFirst := by
  intro s rc r1 r2
  refine ⟨fun _ _ => decode_joinBytes_addRegister, _, exec_addRegister r1 r2 s, ?_, ?_, rfl,
    s.sameControl_writeReg r1 _⟩
  · rw [State.readReg_writeReg_self, add16_toNat]
  · exact (State.SameRegsExcept.refl [r1] s).writeReg (List.mem_singleton_self r1) _

end Sys2Proof.Machine
end

section
/-! `Signal` (43_signal.md R160 to R164): the lookup of a code, what no handler reaches, the three ways a `Signal`
ends, and its step. -/

namespace Sys2Proof

open Sys2Proof.Machine

/-- R93: the argument byte of `Signal` is its code, and every code is legal (R160). -/
theorem decode_joinBytes_signal (rc : List Reg) (c : Byte) : decode rc (joinBytes c 0x09) = .ok (.signal c) := by
  rw [decode_of_opcode_signal (opcodeField_joinBytes c 0x09), argField_joinBytes]

end Sys2Proof

namespace Sys2Proof.Machine

/-! ### The Signal Dispatch Table (R161) -/

theorem sigLookup_eq_none {table : List (Byte × Handler)} {c : Byte} (h : ∀ k, (c, k) ∉ table) :
    sigLookup table c = none := by
  induction table with
  | nil => rfl
  | cons b rest ih =>
    have hhead : b.1 ≠ c := fun hb => h b.2 (by simp [← hb])
    rw [sigLookup, if_neg hhead]
    exact ih fun k hk => h k (List.mem_cons_of_mem b hk)

/-- In a table that binds each code at most once, a listed binding is the one found. -/
theorem sigLookup_of_mem {table : List (Byte × Handler)} {c : Byte} {h : Handler}
    (hnodup : (table.map (·.1)).Nodup) (hmem : (c, h) ∈ table) : sigLookup table c = some h := by
  induction table with
  | nil => cases hmem
  | cons b rest ih =>
    obtain ⟨hfresh, hrest⟩ := List.nodup_cons.mp hnodup
    rw [sigLookup]
    cases hmem with
    | head => exact if_pos rfl
    | tail _ hlater =>
      have hhead : b.1 ≠ c := fun hb => hfresh (List.mem_map.mpr ⟨(c, h), hlater, hb.symm⟩)
      rw [if_neg hhead]
      exact ih hrest hlater

/-- R161: the parameters the spec allows make the table a partial map. -/
theorem sigLookup_of_wellFormed {p : Params} {c : Byte} {h : Handler} (hp : p.WellFormed)
    (hmem : (c, h) ∈ p.sigTable) : sigLookup p.sigTable c = some h := by
  obtain ⟨-, -, hnodup⟩ := hp
  exact sigLookup_of_mem hnodup hmem

/-! ### Handlers (R162, R163) -/

/-- No handler reaches the status, the error, the parameters or the form of memory (R162), a host function included:
what the model counts of its calls is none of these. -/
theorem State.keeps_runHandler (s : State) (h : Handler) : s.Keeps (s.runHandler h).state := by
  cases h with
  | script body => exact s.keeps_runScript body
  | host id =>
    have hcounted : s.Keeps { s with hostCalls := s.hostCalls + 1 } := ⟨rfl, rfl, rfl, fun hmem => hmem⟩
    exact hcounted.trans (State.keeps_runScript _ _)

theorem State.status_of_runHandler_ok {s u : State} {h : Handler} (hrun : s.runHandler h = .ok () u) :
    u.status = s.status := by
  have hkeeps := s.keeps_runHandler h
  rw [hrun] at hkeeps
  obtain ⟨hstatus, -⟩ := hkeeps
  exact hstatus

/-- R163: the halt handler sets the halt flag, does nothing else and succeeds. -/
theorem State.runHandler_haltHandler (s : State) : s.runHandler haltHandler = .ok () (s.setHalt true) := rfl

/-! ### Phase 5 (R160, R164) -/

section Exec

variable {s u : State} {c : Byte} {h : Handler}

theorem exec_signal_of_unbound (hc : sigLookup s.params.sigTable c = none) :
    exec (.signal c) s = .next (s.raise (.unknownSignal c)) := by
  rw [exec, execSignal, hc]

theorem exec_signal_of_ok (hc : sigLookup s.params.sigTable c = some h) (hrun : s.runHandler h = .ok () u) :
    exec (.signal c) s = .next u := by
  simp only [exec, execSignal, hc, hrun, Result.settle]

theorem exec_signal_of_err {e : Error} (hc : sigLookup s.params.sigTable c = some h)
    (hrun : s.runHandler h = .err e u) : exec (.signal c) s = .next (u.raise e) := by
  simp only [exec, execSignal, hc, hrun, Result.settle]

end Exec

/-! ### The step (R116, R160) -/

/-- The error an instruction raises makes the core `Faulted`, so the commit leaves it. -/
@[simp] theorem State.commit_raise (s : State) (e : Error) : (s.raise e).commit = s.raise e := by
  simp [State.commit]

theorem State.commit_status_of_running {s : State} (hs : s.status = .running) :
    s.commit.status = if s.halt = true then .halted else .running := by
  simp [State.commit_status, hs]

section Step

variable {s u : State} {w : Word} {c : Byte} {h : Handler}
variable (hs : s.status = .running) (hf : s.fetch = .ok w) (hd : decode s.params.regCode w = .ok (.signal c))
include hs hf hd

theorem step_signal_of_unbound (hc : sigLookup s.params.sigTable c = none) :
    step s = .next (s.advancePc.raise (.unknownSignal c)) := by
  rw [step_of_decode_ok hs hf hd (exec_signal_of_unbound (s := s.advancePc) hc), State.commit_raise]

/-- After a success the step goes on to its commit, still `Running`, whatever the handler did. -/
theorem step_signal_of_ok (hc : sigLookup s.params.sigTable c = some h)
    (hrun : s.advancePc.runHandler h = .ok () u) : step s = .next u.commit ∧ u.status = .running :=
  ⟨step_of_decode_ok hs hf hd (exec_signal_of_ok (s := s.advancePc) hc hrun),
    (State.status_of_runHandler_ok hrun).trans hs⟩

end Step

/-- Settles O49, by what the lookup finds and how the handler ends. -/
theorem signalLooksUpItsCode : Obligations.SignalLooksUpItsCode := by
  intro s rc c
  refine ⟨decode_joinBytes_signal rc c, fun hout => ?_, fun h u hwf hmem hrun => ?_,
    fun h e u hwf hmem hrun => ?_, fun w hs hf hd => ⟨fun hout => ?_, fun h u hwf hmem hrun => ?_⟩⟩
  · exact ⟨_, exec_signal_of_unbound (sigLookup_eq_none hout), rfl, rfl, s.raised_raise _⟩
  · exact exec_signal_of_ok (sigLookup_of_wellFormed hwf hmem) hrun
  · exact ⟨_, exec_signal_of_err (sigLookup_of_wellFormed hwf hmem) hrun, rfl, rfl, u.raised_raise e⟩
  · exact ⟨_, step_signal_of_unbound hs hf hd (sigLookup_eq_none hout), s.readReg_advancePc_pc,
      s.sameRegsExcept_advancePc, rfl, s.raised_raise_advancePc _⟩
  · obtain ⟨hstep, hrunning⟩ := step_signal_of_ok hs hf hd (sigLookup_of_wellFormed hwf hmem) hrun
    exact ⟨_, hstep, u.commit_regs, u.commit_mem, u.commit_halt, State.commit_status_of_running hrunning⟩

/-- Settles O51: the commit meets the flag the handler has set, in a state the advance alone has changed besides. -/
theorem signalOfTheHaltHandlerHalts : Obligations.SignalOfTheHaltHandlerHalts := by
  refine ⟨fun s c hc => exec_signal_of_ok hc s.runHandler_haltHandler, fun s w c hs hf hd hc => ?_⟩
  obtain ⟨hstep, hrunning⟩ := step_signal_of_ok hs hf hd hc s.advancePc.runHandler_haltHandler
  have hhalted := State.commit_status_of_running hrunning
  refine ⟨_, hstep, hhalted, State.commit_halt _, State.commit_err _, State.commit_mem _, ?_, fun r hr => ?_⟩
  · rw [State.readReg_commit]
    exact s.readReg_advancePc_pc
  · rw [State.readReg_commit]
    exact s.sameRegsExcept_advancePc r hr

end Sys2Proof.Machine
end

section
/-! What every instruction and every step keeps (10_state.md R33, 43_signal.md R162), and the run of the steps
(40_step_sequencing.md R119 to R124). -/

namespace Sys2Proof.Machine

/-! ### How an instruction ends (R115, R120) -/

/-- How phase 5 may end: with the status, the error, the parameters and memory's form kept, or with an error raised
in a state that keeps them (R117). -/
def State.EndsIn (s t : State) : Prop := s.Keeps t ∨ ∃ e u, s.Keeps u ∧ t = u.raise e

theorem Result.settle_answers (r : Result Unit) : ∃ t, r.settle = .next t := by
  cases r with
  | ok v t => exact ⟨t, rfl⟩
  | err e t => exact ⟨t.raise e, rfl⟩

/-- A primitive that keeps the invariant's parts ends an instruction that keeps them. -/
theorem Result.endsIn_of_settle {s t : State} {r : Result Unit} (hk : s.Keeps r.state) (ht : r.settle = .next t) :
    s.EndsIn t := by
  rcases Result.settle_eq_next.mp ht with rfl | ⟨e, u, rfl, rfl⟩
  · exact .inl hk
  · exact .inr ⟨e, u, hk, rfl⟩

theorem exec_answers (i : Instr) (s : State) : ∃ t, exec i s = .next t := by
  cases i with
  | nop => exact ⟨_, rfl⟩
  | push v => exact Result.settle_answers _
  | popRegister r => exact Result.settle_answers _
  | pushRegister r => exact Result.settle_answers _
  | addRegister r1 r2 => exact ⟨_, rfl⟩
  | signal c =>
    cases hc : sigLookup s.params.sigTable c with
    | none => exact ⟨_, exec_signal_of_unbound hc⟩
    | some h =>
      rw [exec, execSignal, hc]
      exact Result.settle_answers _
  | addStack => exact Result.settle_answers _

theorem exec_signal_endsIn {s t : State} {c : Byte} (ht : exec (.signal c) s = .next t) : s.EndsIn t := by
  cases hc : sigLookup s.params.sigTable c with
  | none =>
    rw [exec_signal_of_unbound hc, Host.Outcome.next.injEq] at ht
    exact .inr ⟨_, s, State.Keeps.refl s, ht.symm⟩
  | some h =>
    rw [exec, execSignal, hc] at ht
    exact Result.endsIn_of_settle (s.keeps_runHandler h) ht

theorem exec_endsIn {i : Instr} {s t : State} (ht : exec i s = .next t) : s.EndsIn t := by
  cases i with
  | nop =>
    cases ht
    exact .inl (State.Keeps.refl s)
  | push v => exact Result.endsIn_of_settle (s.keeps_push16 _) ht
  | popRegister r =>
    have hkeeps : s.Keeps (s.pop16.andThen fun v u => .ok () (u.writeOperand r v)).state :=
      State.keeps_andThen s.keeps_pop16 fun v u => u.keeps_writeReg r v
    exact Result.endsIn_of_settle hkeeps ht
  | pushRegister r => exact Result.endsIn_of_settle (s.keeps_push16 _) ht
  | addRegister r1 r2 =>
    cases ht
    exact .inl (s.keeps_writeReg r1 _)
  | signal c => exact exec_signal_endsIn ht
  | addStack =>
    exact Result.endsIn_of_settle (State.keeps_andThen s.keeps_pop16 fun a u =>
      State.keeps_andThen u.keeps_pop16 fun b v => v.keeps_push16 _) ht

/-! ### How a step ends (R121) -/

/-- A running core's step keeps the invariant's parts up to its end, which is the commit or a raise. -/
theorem step_ends {s t : State} (h : step s = .next t) :
    s.status = .running ∧ ∃ u, s.Keeps u ∧ (t = u.commit ∨ ∃ e, t = u.raise e) := by
  have hadvance : s.Keeps s.advancePc := s.keeps_writeReg .pc _
  obtain ⟨hs, ⟨e, -, rfl⟩ | ⟨w, e, -, -, rfl⟩ | ⟨w, i, u, -, -, hu, rfl⟩⟩ := step_next_cases h
  · exact ⟨hs, s, State.Keeps.refl s, .inr ⟨e, rfl⟩⟩
  · exact ⟨hs, s.advancePc, hadvance, .inr ⟨e, rfl⟩⟩
  · refine ⟨hs, ?_⟩
    rcases exec_endsIn hu with hkeeps | ⟨e, v, hkeeps, rfl⟩
    · exact ⟨u, hadvance.trans hkeeps, .inl rfl⟩
    · exact ⟨v, hadvance.trans hkeeps, .inr ⟨e, v.commit_raise e⟩⟩

/-- The commit and a raise reach neither the parameters nor the memory. -/
theorem step_keeps_params_mem {s t : State} (h : step s = .next t) :
    t.params = s.params ∧ (s.MemInv → t.MemInv) := by
  obtain ⟨-, u, ⟨-, -, hparams, hmem⟩, rfl | ⟨e, rfl⟩⟩ := step_ends h
  · refine ⟨u.commit_params.trans hparams, fun hs => ?_⟩
    rw [State.MemInv, State.commit_mem, State.commit_params]
    exact hmem hs
  · exact ⟨hparams, hmem⟩

theorem State.ControlInv.halt_of_running {s : State} (h : s.ControlInv) (hs : s.status = .running) :
    s.halt = false := (h.1 hs).1

theorem State.ControlInv.err_of_running {s : State} (h : s.ControlInv) (hs : s.status = .running) :
    s.err = none := (h.1 hs).2

/-- A running core with no error is committed to a state of R33: its halt flag decides the status (R116). -/
theorem State.controlInv_commit {u : State} (hs : u.status = .running) (he : u.err = none) :
    u.commit.ControlInv := by
  cases hh : u.halt <;> simp [State.ControlInv, State.commit_status, hs, he, hh]

theorem State.controlInv_raise (u : State) (e : Error) : (u.raise e).ControlInv := by
  simp [State.ControlInv]

/-- The control state after a step is that of a commit with no error, or that of a raise (R33). -/
theorem step_controlInv {s t : State} (hs : s.ControlInv) (h : step s = .next t) : t.ControlInv := by
  obtain ⟨hrunning, u, ⟨hstatus, herr, -, -⟩, rfl | ⟨e, rfl⟩⟩ := step_ends h
  · exact State.controlInv_commit (hstatus.trans hrunning) (herr.trans (hs.err_of_running hrunning))
  · exact u.controlInv_raise e

theorem step_inv {s t : State} (hs : s.Inv) (h : step s = .next t) : t.Inv := by
  obtain ⟨hwf, hmem, hcontrol⟩ := hs
  obtain ⟨hparams, hkeep⟩ := step_keeps_params_mem h
  exact ⟨hparams ▸ hwf, hkeep hmem, step_controlInv hcontrol h⟩

/-- Settles O21: a step keeps all but the control state up to its end, and the commit and a raise set that right. -/
theorem stepKeepsTheInvariant : Obligations.StepKeepsTheInvariant := fun _ _ => step_inv

/-- Settles O24: neither the phases nor a handler reach the parameters. -/
theorem noStepChangesTheParameters : Obligations.NoStepChangesTheParameters := fun _ _ h =>
  (step_keeps_params_mem h).1

/-! ### The invariant at reset (R33, R37) -/

theorem State.controlInv_resetWith (p : Params) : (State.resetWith p).ControlInv := by
  simp [State.ControlInv]

theorem State.inv_resetWith {p : Params} (hp : p.WellFormed) : (State.resetWith p).Inv :=
  ⟨hp, ⟨⟨.nil, by simp⟩, by simp⟩, State.controlInv_resetWith p⟩

/-- Settles O20: nothing is listed in memory after reset, and the values this spec takes are ones it allows. -/
theorem resetMeetsTheInvariant : Obligations.ResetMeetsTheInvariant :=
  ⟨State.inv_resetWith (by decide), fun _ => State.inv_resetWith⟩

/-- A host's table for the witness of R33: the handler of code 0 sets the halt flag to `b` and fails. -/
def paramsFailingWithHalt (b : Bool) : Params :=
  { defaultParams with sigTable := [(0x00, .script ⟨[⟨.setHalt b, true⟩], some .stackFault⟩)] }

/-- `Signal 0x00` at the program counter, bound to the handler that sets the halt flag to `b` and fails. -/
def signalFailingWithHalt (b : Bool) : State :=
  { State.resetWith (paramsFailingWithHalt b) with mem := [(0, 0x09)] }

/-- R164: the halt flag the handler set stays when its failure is raised. -/
theorem step_signalFailingWithHalt (b : Bool) :
    step (signalFailingWithHalt b) =
      .next (((signalFailingWithHalt b).advancePc.setHalt b).raise .stackFault) := by
  have hfetch : (signalFailingWithHalt b).fetch = .ok (joinBytes 0x00 0x09) := rfl
  rw [step_of_decode_ok rfl hfetch (decode_joinBytes_signal _ 0x00) (exec_signal_of_err rfl rfl),
    State.commit_raise]

/-- Settles O22: reset and the step by their own lemmas, and a handler that sets the halt flag either way and fails. -/
theorem controlStateKeepsItsInvariants : Obligations.ControlStateKeepsItsInvariants :=
  ⟨State.controlInv_resetWith defaultParams, fun _ _ => step_controlInv, fun b =>
    ⟨signalFailingWithHalt b, _, State.controlInv_resetWith (paramsFailingWithHalt b),
      step_signalFailingWithHalt b, rfl, rfl⟩⟩

/-! ### The run (R110, R119, R124) -/

theorem State.drive_succ_of_next {s t : State} (h : step s = .next t) (n : Nat) :
    State.drive (n + 1) s = State.drive n t := by
  rw [State.drive, h]

/-- R120: every phase answers, so a running core's step does. -/
theorem step_answers {s : State} (hs : s.status = .running) : ∃ t, step s = .next t := by
  cases hf : s.fetch with
  | error e => exact ⟨_, step_of_fetch_error hs hf⟩
  | ok w =>
    cases hd : decode s.params.regCode w with
    | error e => exact ⟨_, step_of_decode_error hs hf hd⟩
    | ok i =>
      obtain ⟨u, hu⟩ := exec_answers i s.advancePc
      exact ⟨_, step_of_decode_ok hs hf hd hu⟩

theorem step_of_halted {s : State} (hs : s.status = .halted) : step s = .fault .stepWhileHalted := by
  rw [step, hs]

theorem step_of_faulted {s : State} (hs : s.status = .faulted) : step s = .fault .stepWhileFaulted := by
  rw [step, hs]

/-- R119: a core that is not running has no step, so a run leaves it. -/
theorem State.drive_of_not_running {s : State} (hs : s.status ≠ .running) (n : Nat) : State.drive n s = s := by
  cases n with
  | zero => rfl
  | succ n =>
    cases hstatus : s.status with
    | running => exact absurd hstatus hs
    | halted => rw [State.drive, step_of_halted hstatus]
    | faulted => rw [State.drive, step_of_faulted hstatus]

/-- What every step keeps, a run of any length keeps. -/
theorem State.drive_induction {P : State → Prop} (hstep : ∀ s t, P s → step s = .next t → P t) (n : Nat) :
    ∀ s, P s → P (State.drive n s) := by
  induction n with
  | zero => exact fun _ hs => hs
  | succ n ih =>
    intro s hs
    by_cases hrunning : s.status = .running
    · obtain ⟨t, ht⟩ := step_answers hrunning
      rw [State.drive_succ_of_next ht]
      exact ih t (hstep s t hs ht)
    · rwa [State.drive_of_not_running hrunning]

/-- Settles O23, by the step's own lemma along the run. -/
theorem everyRunKeepsTheInvariant : Obligations.EveryRunKeepsTheInvariant :=
  State.drive_induction fun _ _ => step_inv

theorem State.drive_add (n k : Nat) : ∀ s, State.drive (n + k) s = State.drive k (State.drive n s) := by
  induction n with
  | zero => intro s; rw [Nat.zero_add, State.drive]
  | succ n ih =>
    intro s
    by_cases hrunning : s.status = .running
    · obtain ⟨t, ht⟩ := step_answers hrunning
      rw [Nat.add_right_comm, State.drive_succ_of_next ht, State.drive_succ_of_next ht, ih]
    · simp only [State.drive_of_not_running hrunning]

theorem State.runEnd_iff (s : State) :
    (s.runEnd = .going ↔ s.status = .running) ∧ (s.runEnd = .success ↔ s.status = .halted) ∧
    (∀ e, s.runEnd = .failure e ↔ s.status = .faulted ∧ s.err = e) := by
  cases hs : s.status <;> simp [State.runEnd, hs]

/-- Settles O40: runs compose, and what a run has left when it is no longer `Running` a further run leaves. -/
theorem runsComposeAndStopAtTheirEnd : Obligations.RunsComposeAndStopAtTheirEnd := fun n k s =>
  ⟨rfl, fun _ h => State.drive_succ_of_next h n, State.drive_add n k s,
    fun hend => (State.drive_add n k s).trans (State.drive_of_not_running hend k), s.runEnd_iff⟩

/-- Settles O30: the fault names the status, and a run has no step to take. -/
theorem noStepUnlessRunning : Obligations.NoStepUnlessRunning := fun _ =>
  ⟨step_of_halted, step_of_faulted, State.drive_of_not_running⟩

/-- A step's result is success or the recorded error, as R33 ties the error to the status (R120). -/
theorem State.ControlInv.result {t : State} (ht : t.ControlInv) :
    (t.status = .running ∨ t.status = .halted) ∧ t.err = none ∨ t.status = .faulted ∧ ∃ e, t.err = some e := by
  obtain ⟨hrunning, hhalted, hfaulted⟩ := ht
  cases hs : t.status with
  | running => exact .inl ⟨.inl rfl, (hrunning hs).2⟩
  | halted => exact .inl ⟨.inr rfl, (hhalted hs).2⟩
  | faulted => exact .inr ⟨rfl, Option.ne_none_iff_exists'.mp (hfaulted.mp hs)⟩

/-- Settles O39: each instruction answers, so each step does, and the control state it leaves tells its result. -/
theorem everyInstructionAnswersANextState : Obligations.EveryInstructionAnswersANextState :=
  ⟨exec_answers, fun _ => step_answers, fun _ _ hs h => (step_controlInv hs h).result⟩

/-! ### Phases 5 and 6 (R115, R116), and the step of `Signal` (R162 to R165) -/

/-- Settles O26: the instruction answers a next state, and the step is the commit of that. -/
theorem stepRunsTheDecodedInstruction : Obligations.StepRunsTheDecodedInstruction := by
  intro s w i hs hf hd
  obtain ⟨u, hu⟩ := exec_answers i s.advancePc
  rw [step_of_decode_ok hs hf hd hu, hu]

theorem State.commit_of_faulted {s : State} (hs : s.status = .faulted) : s.commit = s := by
  simp [State.commit, hs]

/-- Settles O31: the step is the instruction's state committed. -/
theorem commitTestsTheHaltFlag : Obligations.CommitTestsTheHaltFlag := by
  intro s u w i hs hf hd hu
  have hstep := step_of_decode_ok hs hf hd hu
  refine ⟨fun hrunning => ?_, fun hfaulted => by rw [hstep, State.commit_of_faulted hfaulted]⟩
  exact ⟨_, hstep, State.commit_status_of_running hrunning, u.commit_regs, u.commit_mem, u.commit_halt,
    u.commit_err, u.commit_params⟩

/-- R164: the failure of a handler is raised in the state it left, and no commit follows. -/
theorem step_signal_of_err {s u : State} {w : Word} {c : Byte} {h : Handler} {e : Error}
    (hs : s.status = .running) (hf : s.fetch = .ok w) (hd : decode s.params.regCode w = .ok (.signal c))
    (hc : sigLookup s.params.sigTable c = some h) (hrun : s.advancePc.runHandler h = .err e u) :
    step s = .next (u.raise e) := by
  rw [step_of_decode_ok hs hf hd (exec_signal_of_err (s := s.advancePc) hc hrun), State.commit_raise]

theorem State.err_of_runHandler_ok {s u : State} {h : Handler} (hrun : s.runHandler h = .ok () u) :
    u.err = s.err := by
  have hkeeps := s.keeps_runHandler h
  rw [hrun] at hkeeps
  obtain ⟨-, herr, -⟩ := hkeeps
  exact herr

/-- Settles O50, by the two ways the handler ends. -/
theorem signalRunsItsHandler : Obligations.SignalRunsItsHandler := by
  intro s u w c h hs hf hd hc
  refine ⟨s.readReg_advancePc_pc, s.sameRegsExcept_advancePc, rfl, s.sameControl_writeReg .pc _,
    fun hinv => hinv.halt_of_running hs, fun hrun => ?_, fun e hrun => ?_⟩
  · obtain ⟨hstep, hrunning⟩ := step_signal_of_ok hs hf hd hc hrun
    exact ⟨_, hstep, u.commit_regs, u.commit_mem, u.commit_halt, State.commit_status_of_running hrunning,
      u.commit_err.trans (State.err_of_runHandler_ok (s := s.advancePc) hrun)⟩
  · exact ⟨_, step_signal_of_err hs hf hd hc hrun, rfl, rfl, u.raised_raise e⟩

/-- Settles O52: a handler keeps the status, the error and the parameters, and only a raise changes the first two. -/
theorem signalKeepsTheHandlersLimits : Obligations.SignalKeepsTheHandlersLimits := by
  intro s c
  obtain ⟨t, ht⟩ := exec_answers (.signal c) s
  refine ⟨t, ht, ?_⟩
  rcases exec_signal_endsIn ht with ⟨hstatus, herr, hparams, -⟩ | ⟨e, u, ⟨-, -, hparams, -⟩, rfl⟩
  · exact ⟨hparams, .inl ⟨hstatus, herr⟩⟩
  · exact ⟨hparams, .inr ⟨rfl, e, rfl⟩⟩

end Sys2Proof.Machine
end

section
/-! The stack instructions by the words they reach (41_nop_and_stack.md R130 to R137, 42_add.md R151, R153): pushes,
`AddStack`, and the fetch of what was stored. -/

namespace Sys2Proof

open Sys2Proof.Machine

/-- R93: the argument byte of `Push` is its immediate. -/
theorem decode_joinBytes_push (rc : List Reg) (v : Byte) : decode rc (joinBytes v 0x01) = .ok (.push v) := by
  rw [decode_of_opcode_push (opcodeField_joinBytes v 0x01), argField_joinBytes]

/-- R88: the argument byte of `PushRegister` is the code of its register. -/
theorem decode_joinBytes_pushRegister {rc : List Reg} {c : Byte} {r : Reg} (h : fromCode rc c = some r) :
    decode rc (joinBytes c 0x03) = .ok (.pushRegister r) := by
  rw [decode_of_opcode_pushRegister (opcodeField_joinBytes c 0x03), argField_joinBytes]
  exact decodeOneReg_of_ok .pushRegister (resolveReg_of_some rfl h)

/-- R87: the argument byte of `AddStack` is ignored. -/
theorem decode_joinBytes_addStack (rc : List Reg) (arg : Byte) : decode rc (joinBytes arg 0x0F) = .ok .addStack :=
  decode_of_opcode_addStack (opcodeField_joinBytes arg 0x0F)

/-- R93: the argument byte of an encoded `AddStack` is zero (D4). -/
theorem encode_addStack (rc : List Reg) : encode rc .addStack = 0x000F :=
  (by decide : joinBytes 0x00 0x0F = 0x000F)

end Sys2Proof

namespace Sys2Proof.Machine

/-! ### The operand of `Push` (R90) -/

/-- R90: zero extension puts a zero byte above. -/
theorem zext16_eq_joinBytes (v : Byte) : zext16 v = joinBytes 0 v := by
  apply BitVec.eq_of_toNat_eq
  rw [joinBytes_toNat, zext16, BitVec.toNat_setWidth_of_le (by decide)]
  simp

@[simp] theorem lowByte_zext16 (v : Byte) : lowByte (zext16 v) = v := by
  rw [zext16_eq_joinBytes, lowByte_joinBytes]

@[simp] theorem highByte_zext16 (v : Byte) : highByte (zext16 v) = 0 := by
  rw [zext16_eq_joinBytes, highByte_joinBytes]

/-! ### Frames -/

/-- A word stored at `a` changes what is read at its two bytes alone (R54). -/
theorem State.sameMemExcept_writeWord (s : State) (a : Nat) (v : Word) :
    s.SameMemExcept [a, a + 1] (s.setMem (Memory.writeWord s.mem a v)) := by
  intro x hx
  obtain ⟨hlow, hhigh⟩ : x ≠ a ∧ x ≠ a + 1 := by simpa using hx
  rw [State.setMem_mem, Memory.writeWord, Memory.read_write_ne _ _ hhigh, Memory.read_write_ne _ _ hlow]

theorem State.SameMemExcept.refl (bytes : List Nat) (s : State) : s.SameMemExcept bytes s := fun _ _ => rfl

theorem State.SameControl.refl (s : State) : s.SameControl s := ⟨rfl, rfl, rfl, rfl, rfl⟩

/-- A raise after what leaves the control state is a raise from the state before it. -/
theorem State.SameControl.raised {s t : State} (h : s.SameControl t) (e : Error) : s.Raised e (t.raise e) := by
  obtain ⟨hhalt, -, -, hparams, hcalls⟩ := h
  exact ⟨rfl, rfl, hhalt, hparams, hcalls⟩

/-! ### Where a push has stored its word (R130) -/

/-- What a push of `v` at address `a` leaves: the word stored, and `SP` two further. -/
def State.pushedAt (s : State) (a v : Word) : State :=
  (s.setMem (Memory.writeWord s.mem a.toNat v)).writeReg .sp (add16 a 2)

section Pushed

variable (s : State) (a v : Word)

@[simp] theorem State.pushedAt_mem : (s.pushedAt a v).mem = Memory.writeWord s.mem a.toNat v := rfl

@[simp] theorem State.readReg_pushedAt_sp : (s.pushedAt a v).readReg .sp = add16 a 2 :=
  State.readReg_writeReg_self ..

theorem State.readReg_pushedAt_ne {r : Reg} (h : r ≠ .sp) : (s.pushedAt a v).readReg r = s.readReg r :=
  State.readReg_writeReg_ne _ _ h

@[simp] theorem State.wordAt_pushedAt : (s.pushedAt a v).wordAt a.toNat = v :=
  s.wordAt_setMem_writeWord a.toNat v

theorem State.sameRegsExcept_pushedAt : s.SameRegsExcept [.sp] (s.pushedAt a v) := fun _ hr =>
  s.readReg_pushedAt_ne a v (List.ne_of_not_mem_cons hr)

theorem State.sameMemExcept_pushedAt : s.SameMemExcept [a.toNat, a.toNat + 1] (s.pushedAt a v) :=
  s.sameMemExcept_writeWord a.toNat v

theorem State.sameControl_pushedAt : s.SameControl (s.pushedAt a v) := ⟨rfl, rfl, rfl, rfl, rfl⟩

/-- A push sets `SP` itself, so it leaves the same whatever `SP` was. -/
@[simp] theorem State.pushedAt_writeReg_sp (w : Word) : (s.writeReg .sp w).pushedAt a v = s.pushedAt a v := by
  simp [State.pushedAt, State.writeReg, State.setMem]

end Pushed

/-- What a failed push of `v` leaves before its error is raised: memory as `W16_PARTIAL` says (R14, R130). -/
def State.pushFailed (s : State) (v : Word) : State :=
  if s.pushAddr.toNat < s.params.memSize then s.partialWrite s.pushAddr.toNat v else s

section PushFailed

variable (s : State) (v : Word)

@[simp] theorem State.pushFailed_regs : (s.pushFailed v).regs = s.regs := by
  unfold State.pushFailed; split <;> simp

theorem State.sameControl_pushFailed : s.SameControl (s.pushFailed v) := by
  unfold State.pushFailed; split <;> simp [State.SameControl]

theorem State.sameRegsExcept_pushFailed (rs : List Reg) : s.SameRegsExcept rs (s.pushFailed v) := fun r _ => by
  rw [State.readReg, State.pushFailed_regs, State.readReg]

theorem State.pushFailed_of_nothing (hp : s.params.w16Partial = .nothing) : s.pushFailed v = s := by
  rw [State.pushFailed, State.partialWrite_nothing s v _ hp, ite_self]

theorem State.pushFailed_of_beyond (h : s.params.memSize ≤ s.pushAddr.toNat) : s.pushFailed v = s :=
  if_neg h.not_gt

/-- With `W16_PARTIAL = low_byte` the low byte in range is written (R14). -/
theorem State.pushFailed_of_lowByte (h : s.pushAddr.toNat < s.params.memSize)
    (hp : s.params.w16Partial = .lowByte) :
    s.pushFailed v = s.setMem (Memory.write s.mem s.pushAddr.toNat (lowByte v)) := by
  rw [State.pushFailed, if_pos h, State.partialWrite_lowByte s v _ hp]

/-- A failed push reaches its low byte at most, and only if that byte exists. -/
theorem State.sameMemExcept_pushFailed :
    s.SameMemExcept [s.pushAddr.toNat] (s.pushFailed v) := by
  by_cases h : s.pushAddr.toNat < s.params.memSize
  · cases hp : s.params.w16Partial with
    | nothing =>
      rw [State.pushFailed_of_nothing s v hp]
      exact State.SameMemExcept.refl _ s
    | lowByte =>
      rw [State.pushFailed_of_lowByte s v h hp]
      exact s.sameMemExcept_write _ _
  · rw [State.pushFailed_of_beyond s v (not_lt.mp h)]
    exact State.SameMemExcept.refl _ s

end PushFailed

/-! ### The end of a push (R130, R134, R136) -/

section Push

variable {s : State} (v : Word)

theorem State.push16_pushedAt (h : s.pushAddr.toNat + 1 < s.params.memSize) :
    s.push16 v = .ok () (s.pushedAt s.pushAddr v) :=
  s.push16_of_fits v h

theorem settle_push16_of_fits (h : s.pushAddr.toNat + 1 < s.params.memSize) :
    (s.push16 v).settle = .next (s.pushedAt s.pushAddr v) := by
  rw [State.push16_pushedAt v h, Result.settle]

theorem settle_push16_of_not_fits (h : ¬ s.pushAddr.toNat + 1 < s.params.memSize) :
    (s.push16 v).settle = .next ((s.pushFailed v).raise .stackFault) := by
  rw [State.push16_of_not_fits s v h, Result.settle, State.pushFailed]

theorem settle_push16_fault_nothing (h : s.params.memSize ≤ s.pushAddr.toNat + 1)
    (hp : s.params.w16Partial = .nothing) :
    ∃ t, (s.push16 v).settle = .next t ∧ t.regs = s.regs ∧ t.mem = s.mem ∧ s.Raised .stackFault t := by
  refine ⟨_, settle_push16_of_not_fits v h.not_gt, ?_⟩
  rw [State.pushFailed_of_nothing s v hp]
  exact ⟨rfl, rfl, s.raised_raise .stackFault⟩

/-- The byte a failed push can reach is the last one of memory. -/
theorem settle_push16_fault_lowByte (h : s.params.memSize ≤ s.pushAddr.toNat + 1)
    (hp : s.params.w16Partial = .lowByte) :
    ∃ t, (s.push16 v).settle = .next t ∧ t.regs = s.regs ∧ s.Raised .stackFault t ∧
      (s.pushAddr.toNat + 1 = s.params.memSize → Memory.read t.mem s.pushAddr.toNat = lowByte v) ∧
      s.SameMemExcept [s.params.memSize - 1] t ∧ (s.params.memSize ≤ s.pushAddr.toNat → t.mem = s.mem) := by
  refine ⟨_, settle_push16_of_not_fits v h.not_gt, s.pushFailed_regs v, (s.sameControl_pushFailed v).raised _,
    fun hlast => ?_, ?_, fun hbeyond => ?_⟩
  · rw [State.pushFailed_of_lowByte s v (by omega) hp]
    exact Memory.read_write_self ..
  · by_cases hin : s.pushAddr.toNat < s.params.memSize
    · have hlast : s.params.memSize - 1 = s.pushAddr.toNat := by omega
      rw [hlast]
      exact s.sameMemExcept_pushFailed v
    · rw [State.pushFailed_of_beyond s v (not_lt.mp hin)]
      exact State.SameMemExcept.refl _ s
  · rw [State.pushFailed_of_beyond s v hbeyond, State.raise_mem]

end Push

theorem exec_push (v : Byte) (s : State) : exec (.push v) s = (s.push16 (zext16 v)).settle := rfl

theorem exec_pushRegister (r : Reg) (s : State) : exec (.pushRegister r) s = (s.push16 (s.readReg r)).settle := rfl

/-- Settles O44: the push of a word whose low byte is the immediate and whose high byte is zero. -/
theorem pushPushesTheZeroExtendedImmediate : Obligations.PushPushesTheZeroExtendedImmediate := by
  rintro s rc v a (rfl : a = s.pushAddr.toNat)
  refine ⟨decode_joinBytes_push rc v, fun hin => ⟨_, settle_push16_of_fits _ hin, ?_, ?_,
    s.readReg_pushedAt_sp s.pushAddr _, s.sameRegsExcept_pushedAt _ _, s.sameMemExcept_pushedAt _ _,
    s.sameControl_pushedAt _ _⟩, settle_push16_fault_nothing _, fun hout hp => ?_⟩
  · exact (Memory.read_writeWord_low ..).trans (lowByte_zext16 v)
  · exact (Memory.read_writeWord_high ..).trans (highByte_zext16 v)
  · have hfault := settle_push16_fault_lowByte (zext16 v) hout hp
    rwa [lowByte_zext16] at hfault

/-- Settles O45: the register is read before `SP` moves, so the word pushed is its value in `s`. -/
theorem pushRegisterPushesTheRegister : Obligations.PushRegisterPushesTheRegister := by
  rintro s rc r a (rfl : a = s.pushAddr.toNat)
  exact ⟨fun c hc => decode_joinBytes_pushRegister hc, fun hin => ⟨_, settle_push16_of_fits _ hin,
    s.wordAt_pushedAt _ _, s.readReg_pushedAt_sp s.pushAddr _, s.sameRegsExcept_pushedAt _ _,
    s.sameMemExcept_pushedAt _ _, s.sameControl_pushedAt _ _⟩, settle_push16_fault_nothing _,
    settle_push16_fault_lowByte _⟩

/-! ### `AddStack` (R151, R153) -/

/-- The second pop of `AddStack` reads where its sum will be stored (R151). -/
@[simp] theorem State.popAddr_writeReg_popAddr (s : State) : (s.writeReg .sp s.popAddr).popAddr = s.sumAddr := by
  rw [State.popAddr, State.readReg_writeReg_self, State.sumAddr]

theorem State.add16_sumAddr (s : State) : add16 s.sumAddr 2 = s.popAddr := by
  simp [State.sumAddr, add16, sub16]

section AddStack

variable {s : State}

/-- The sum is pushed where the second pop read, which cannot fail (R153). -/
theorem exec_addStack_of_fits (ha : s.popAddr.toNat + 1 < s.params.memSize)
    (hb : s.sumAddr.toNat + 1 < s.params.memSize) :
    exec .addStack s =
      .next (s.pushedAt s.sumAddr (add16 (s.wordAt s.popAddr.toNat) (s.wordAt s.sumAddr.toNat))) := by
  have hsecond := State.pop16_of_popAddr s.popAddr_writeReg_popAddr hb
  have hpushAddr : (s.writeReg .sp s.sumAddr).pushAddr = s.sumAddr := State.readReg_writeReg_self ..
  have hpush (v : Word) : ((s.writeReg .sp s.sumAddr).push16 v) = .ok () (s.pushedAt s.sumAddr v) := by
    rw [State.push16_pushedAt v (by rw [hpushAddr]; exact hb), hpushAddr, State.pushedAt_writeReg_sp]
  rw [State.writeReg_writeReg] at hsecond
  simp only [exec, execAddStack, State.pop16_of_popAddr rfl ha, hsecond, Result.andThen, State.wordAt_writeReg, hpush,
    Result.settle]

theorem exec_addStack_of_first_not_fits (ha : ¬ s.popAddr.toNat + 1 < s.params.memSize) :
    exec .addStack s = .next (s.raise .stackFault) := by
  simp only [exec, execAddStack, State.pop16_of_not_fits s ha, Result.andThen, Result.settle]

/-- The second pop restores the `SP` it found, two less than the instruction's (D9). -/
theorem exec_addStack_of_second_not_fits (ha : s.popAddr.toNat + 1 < s.params.memSize)
    (hb : ¬ s.sumAddr.toNat + 1 < s.params.memSize) :
    exec .addStack s = .next ((s.writeReg .sp s.popAddr).raise .stackFault) := by
  have hsecond : (s.writeReg .sp s.popAddr).pop16 = .err .stackFault (s.writeReg .sp s.popAddr) :=
    State.pop16_of_not_fits _ (by rwa [State.popAddr_writeReg_popAddr])
  simp only [exec, execAddStack, State.pop16_of_popAddr rfl ha, hsecond, Result.andThen, Result.settle]

end AddStack

theorem State.sumAddr_eq_sub_four (s : State) : s.sumAddr = s.readReg .sp - 4 := by
  rw [State.sumAddr, State.popAddr, sub16, sub16, BitVec.sub_sub]
  rfl

/-- Settles O47, by the three ways the two pops end. -/
theorem addStackAddsTheTopTwoWords : Obligations.AddStackAddsTheTopTwoWords := by
  rintro s rc arg a b (rfl : a = s.popAddr) hb
  rw [← State.sumAddr_eq_sub_four] at hb
  subst hb
  refine ⟨decode_joinBytes_addStack rc arg, encode_addStack rc, fun ha hb => ?_, fun ha => ?_, fun ha hb => ?_⟩
  · exact ⟨_, exec_addStack_of_fits ha hb, s.wordAt_pushedAt _ _,
      (s.readReg_pushedAt_sp _ _).trans s.add16_sumAddr, s.sameRegsExcept_pushedAt _ _,
      s.sameMemExcept_pushedAt _ _, s.sameControl_pushedAt _ _⟩
  · exact ⟨_, exec_addStack_of_first_not_fits ha.not_gt, rfl, rfl, s.raised_raise .stackFault⟩
  · exact ⟨_, exec_addStack_of_second_not_fits ha hb.not_gt, s.readReg_writeReg_self .sp _,
      (State.SameRegsExcept.refl [.sp] s).writeReg (List.mem_singleton_self _) _, rfl,
      (s.sameControl_writeReg .sp s.popAddr).raised _⟩

/-- A pop succeeds exactly where its word lies in memory, and leaves `SP` at that word. -/
theorem State.pop16_eq_ok {s t : State} {v : Word} :
    s.pop16 = .ok v t ↔ s.popAddr.toNat + 1 < s.params.memSize ∧ v = s.wordAt s.popAddr.toNat ∧
      t = s.writeReg .sp s.popAddr := by
  by_cases h : s.popAddr.toNat + 1 < s.params.memSize
  · rw [State.pop16_of_popAddr rfl h, Result.ok.injEq]
    simp [h, eq_comm]
  · simp [State.pop16_of_not_fits s h, h]

/-- Settles O42: the push writes at the `SP` the second pop left, where that pop has read. -/
theorem pushOfAddStackCannotFail : Obligations.PushOfAddStackCannotFail := by
  intro s t u a b v _ hpop
  obtain ⟨hfits, -, rfl⟩ := State.pop16_eq_ok.mp hpop
  have hpushAddr : (t.writeReg .sp t.popAddr).pushAddr = t.popAddr := State.readReg_writeReg_self ..
  exact ⟨_, State.push16_pushedAt v (by rw [hpushAddr]; exact hfits)⟩

/-! ### The fetch of what was stored (20_memory.md R65, R67) -/

/-- No read of memory asks for a register. -/
@[simp] theorem State.memRead16_writeReg (s : State) (r : Reg) (v : Word) (a : Nat) :
    (s.writeReg r v).memRead16 a = s.memRead16 a := rfl

/-- Settles O37: the fetch reads the bytes the store wrote. -/
theorem fetchSeesStores : Obligations.FetchSeesStores := by
  refine ⟨fun s t v h => ?_, fun s t b h hin => ?_⟩
  · obtain ⟨hfits, rfl⟩ := State.push16_eq_ok.mp h
    have hread : (s.setMem (Memory.writeWord s.mem s.pushAddr.toNat v)).memRead16 (s.readReg .sp).toNat = .ok v :=
      s.memRead16_setMem_writeWord v hfits
    rw [State.fetch, State.readReg_writeReg_self, State.memRead16_writeReg, State.memRead16_writeReg, hread]
  · rw [State.memWrite8_of_fits _ _ _ (by omega)] at h
    cases h
    refine ⟨_, State.fetch_of_fits _ hin, ?_⟩
    rw [opcodeField_joinBytes]
    exact Memory.read_write_self ..

end Sys2Proof.Machine
end

section
/-! What an instruction leaves unchanged and which errors it raises (10_state.md R23, 20_memory.md R69,
60_exceptions.md R185 to R191), and the same of a step. -/

namespace Sys2Proof.Machine

/-! ### The frame of an instruction (R23, R69) -/

/-- The bytes of the word an instruction stores by itself, if it stores one (R69). -/
def State.storeBytes (s : State) (i : Instr) : List Nat :=
  match s.storeAddr i with
  | none => []
  | some a => [a.toNat, a.toNat + 1]

theorem State.storeBytes_of_storeAddr {s : State} {i : Instr} {a : Word} (h : s.storeAddr i = some a) :
    s.storeBytes i = [a.toNat, a.toNat + 1] := by
  rw [State.storeBytes, h]

/-- From `s` to `t` only the registers `rs` and the bytes `bytes` changed, and of the control state nothing, unless a
`StackFault` was raised. -/
structure State.Frame (rs : List Reg) (bytes : List Nat) (s t : State) : Prop where
  regs : s.SameRegsExcept rs t
  mem : s.SameMemExcept bytes t
  control : s.SameControl t ∨ s.Raised .stackFault t

theorem State.Frame.halt_params_hostCalls {rs : List Reg} {bytes : List Nat} {s t : State} (h : s.Frame rs bytes t) :
    t.halt = s.halt ∧ t.params = s.params ∧ t.hostCalls = s.hostCalls := by
  obtain ⟨hhalt, -, -, hparams, hcalls⟩ | ⟨-, -, hhalt, hparams, hcalls⟩ := h.control
  · exact ⟨hhalt, hparams, hcalls⟩
  · exact ⟨hhalt, hparams, hcalls⟩

theorem State.Frame.err {rs : List Reg} {bytes : List Nat} {s t : State} (h : s.Frame rs bytes t) :
    t.err = s.err ∨ t.err = some .stackFault := by
  obtain ⟨-, -, herr, -⟩ | ⟨-, herr, -⟩ := h.control
  · exact .inl herr
  · exact .inr herr

theorem State.SameMemExcept.mono {bytes bytes' : List Nat} {s t : State} (h : s.SameMemExcept bytes t)
    (hsub : bytes ⊆ bytes') : s.SameMemExcept bytes' t := fun a ha => h a fun hmem => ha (hsub hmem)

theorem frame_of_settle_push16 {s t : State} {v : Word} (h : (s.push16 v).settle = .next t) :
    s.Frame [.sp] [s.pushAddr.toNat, s.pushAddr.toNat + 1] t := by
  by_cases hin : s.pushAddr.toNat + 1 < s.params.memSize
  · rw [settle_push16_of_fits v hin] at h
    cases h
    exact ⟨s.sameRegsExcept_pushedAt _ _, s.sameMemExcept_pushedAt _ _, .inl (s.sameControl_pushedAt _ _)⟩
  · rw [settle_push16_of_not_fits v hin] at h
    cases h
    exact ⟨s.sameRegsExcept_pushFailed v _, (s.sameMemExcept_pushFailed v).mono (by simp),
      .inr ((s.sameControl_pushFailed v).raised _)⟩

theorem frame_of_exec_popRegister {s t : State} {r : Reg} (h : exec (.popRegister r) s = .next t) :
    s.Frame [.sp, r] [] t := by
  by_cases hin : s.popAddr.toNat + 1 < s.params.memSize
  · rw [exec_popRegister_of_fits r hin] at h
    cases h
    exact ⟨((State.SameRegsExcept.refl _ s).writeReg (by simp) _).writeReg (by simp) _,
      State.SameMemExcept.refl _ s, .inl (State.SameControl.refl s)⟩
  · rw [exec_popRegister_of_not_fits r hin] at h
    cases h
    exact ⟨State.SameRegsExcept.refl _ s, State.SameMemExcept.refl _ s, .inr (s.raised_raise _)⟩

theorem frame_of_exec_addStack {s t : State} (h : exec .addStack s = .next t) :
    s.Frame [.sp] [s.sumAddr.toNat, s.sumAddr.toNat + 1] t := by
  by_cases ha : s.popAddr.toNat + 1 < s.params.memSize
  · by_cases hb : s.sumAddr.toNat + 1 < s.params.memSize
    · rw [exec_addStack_of_fits ha hb] at h
      cases h
      exact ⟨s.sameRegsExcept_pushedAt _ _, s.sameMemExcept_pushedAt _ _, .inl (s.sameControl_pushedAt _ _)⟩
    · rw [exec_addStack_of_second_not_fits ha hb] at h
      cases h
      exact ⟨(State.SameRegsExcept.refl [.sp] s).writeReg (List.mem_singleton_self _) _,
        State.SameMemExcept.refl _ s, .inr ((s.sameControl_writeReg .sp _).raised _)⟩
  · rw [exec_addStack_of_first_not_fits ha] at h
    cases h
    exact ⟨State.SameRegsExcept.refl _ s, State.SameMemExcept.refl _ s, .inr (s.raised_raise _)⟩

/-- Every instruction but `Signal` writes its destinations and the word it stores, and raises `StackFault` alone. -/
theorem exec_frame {s t : State} {i : Instr} (hi : ∀ c, i ≠ .signal c) (h : exec i s = .next t) :
    s.Frame (destsOf i) (s.storeBytes i) t := by
  cases i with
  | nop =>
    cases h
    exact ⟨State.SameRegsExcept.refl _ s, State.SameMemExcept.refl _ s, .inl (State.SameControl.refl s)⟩
  | push v => exact frame_of_settle_push16 h
  | popRegister r => exact frame_of_exec_popRegister h
  | pushRegister r => exact frame_of_settle_push16 h
  | addRegister r1 r2 =>
    cases h
    exact ⟨(State.SameRegsExcept.refl [r1] s).writeReg (List.mem_singleton_self r1) _,
      State.SameMemExcept.refl _ s, .inl (State.SameControl.refl s)⟩
  | signal c => exact absurd rfl (hi c)
  | addStack => exact frame_of_exec_addStack h

/-- An instruction that stores no word leaves every byte as it reads. -/
theorem State.SameMemExcept.read {s t : State} (h : s.SameMemExcept [] t) (a : Nat) :
    Memory.read t.mem a = Memory.read s.mem a := h a List.not_mem_nil

/-- Settles O53: `Nop` changes nothing and `AddRegister` writes one register. -/
theorem registerInstructionsFrame : Obligations.RegisterInstructionsFrame := by
  rintro s t i (rfl | ⟨r1, r2, rfl⟩) h
  · have hframe := exec_frame (by simp) h
    cases h
    exact ⟨hframe.regs, hframe.mem.read, State.SameControl.refl s⟩
  · have hframe := exec_frame (by simp) h
    cases h
    exact ⟨hframe.regs, hframe.mem.read, s.sameControl_writeReg r1 _⟩

/-- Settles O54, by the frame of a push: the word's address is `SP`. -/
theorem pushInstructionsFrame : Obligations.PushInstructionsFrame := by
  rintro s t i hi h
  have hsignal : ∀ c, i ≠ .signal c := by
    rintro c rfl
    simp at hi
  have hdests : destsOf i = [.sp] := by
    rcases hi with ⟨v, rfl⟩ | ⟨r, rfl⟩ <;> rfl
  have hframe := exec_frame hsignal h
  obtain ⟨hhalt, hparams, hcalls⟩ := hframe.halt_params_hostCalls
  refine ⟨hdests ▸ hframe.regs, hhalt, hparams, hcalls, hframe.control, fun a ha => ?_⟩
  exact State.storeBytes_of_storeAddr ha ▸ hframe.mem

/-- Settles O55: the frame of an instruction that stores no word. -/
theorem popInstructionFrame : Obligations.PopInstructionFrame := by
  intro s t r h
  have hframe := frame_of_exec_popRegister h
  exact ⟨hframe.regs, hframe.mem.read, hframe.control⟩

/-- Settles O56: the frame whose word is the sum's. -/
theorem addStackFrame : Obligations.AddStackFrame := by
  intro s t h
  have hframe := exec_frame (by simp) h
  exact ⟨hframe.regs, hframe.control, fun a ha => State.storeBytes_of_storeAddr ha ▸ hframe.mem⟩

/-! ### Instructions and steps that run no handler (R29, R31, R113, R166) -/

/-- An instruction that runs no handler writes its destinations alone, and leaves the halt flag. -/
theorem exec_frame_of_no_handler {s t : State} {i : Instr}
    (hi : ∀ c, i = .signal c → sigLookup s.params.sigTable c = none) (h : exec i s = .next t) :
    s.SameRegsExcept (destsOf i) t ∧ t.halt = s.halt := by
  by_cases hsignal : ∃ c, i = .signal c
  · obtain ⟨c, rfl⟩ := hsignal
    rw [exec_signal_of_unbound (hi c rfl)] at h
    cases h
    exact ⟨State.SameRegsExcept.refl _ s, rfl⟩
  · have hframe := exec_frame (not_exists.mp hsignal) h
    obtain ⟨hhalt, -, -⟩ := hframe.halt_params_hostCalls
    exact ⟨hframe.regs, hhalt⟩

/-- The end of a step whose word decodes: the instruction's state, committed (R115, R116). -/
theorem step_next_of_decode_ok {s t : State} {w : Word} {i : Instr} (h : step s = .next t) (hf : s.fetch = .ok w)
    (hd : decode s.params.regCode w = .ok i) : ∃ u, exec i s.advancePc = .next u ∧ t = u.commit := by
  obtain ⟨hs, -⟩ := step_next_cases h
  obtain ⟨u, hu⟩ := exec_answers i s.advancePc
  rw [step_of_decode_ok hs hf hd hu] at h
  cases h
  exact ⟨u, hu, rfl⟩

/-- Settles O32: neither a decode error nor an instruction that leaves `PC` changes what the advance wrote. -/
theorem pcAdvancesByTwo : Obligations.PcAdvancesByTwo := by
  intro s t w hf h hi
  have hadvance : s.advancePc.readReg .pc = s.readReg .pc + 2 := s.readReg_advancePc_pc
  cases hd : decode s.params.regCode w with
  | error e =>
    obtain ⟨hs, -⟩ := step_next_cases h
    rw [step_of_decode_error hs hf hd] at h
    cases h
    exact hadvance
  | ok i =>
    obtain ⟨hpc, hunbound⟩ := hi i hd
    obtain ⟨u, hu, rfl⟩ := step_next_of_decode_ok h hf hd
    obtain ⟨hregs, -⟩ := exec_frame_of_no_handler (s := s.advancePc) hunbound hu
    rw [State.readReg_commit, hregs .pc hpc, hadvance]

/-- A step that runs no handler leaves the halt flag, and each register but `PC` that its instruction does not name
as a destination. -/
theorem step_frame_of_no_handler {s t : State} (h : step s = .next t)
    (hno : ∀ w c, s.fetch = .ok w → decode s.params.regCode w = .ok (.signal c) →
      sigLookup s.params.sigTable c = none) :
    t.halt = s.halt ∧ ∀ r, r ≠ .pc → t.readReg r ≠ s.readReg r →
      ∃ w i, s.fetch = .ok w ∧ decode s.params.regCode w = .ok i ∧ r ∈ destsOf i := by
  obtain ⟨-, ⟨e, -, rfl⟩ | ⟨w, e, -, -, rfl⟩ | ⟨w, i, u, hf, hd, hu, rfl⟩⟩ := step_next_cases h
  · exact ⟨rfl, fun r _ hchange => absurd rfl hchange⟩
  · exact ⟨rfl, fun r hr hchange => absurd (s.readReg_advancePc_ne hr) hchange⟩
  · obtain ⟨hregs, hhalt⟩ := exec_frame_of_no_handler (s := s.advancePc) (fun c hc => hno w c hf (hc ▸ hd)) hu
    refine ⟨u.commit_halt.trans hhalt, fun r hr hchange => ⟨w, i, hf, hd, ?_⟩⟩
    by_contra hdest
    refine hchange ?_
    rw [State.readReg_commit, hregs r hdest, s.readReg_advancePc_ne hr]

/-- Settles O36: `Halted` needs the halt flag set (R33), and a step that runs no handler leaves the flag. -/
theorem onlySignalHalts : Obligations.OnlySignalHalts := by
  intro s t hs h hend
  obtain ⟨-, hhalted, -⟩ := step_controlInv hs h
  have hset : t.halt = true := hend.elim id fun hstatus => (hhalted hstatus).1
  by_contra hnone
  have hno : ∀ w c, s.fetch = .ok w → decode s.params.regCode w = .ok (.signal c) →
      sigLookup s.params.sigTable c = none := fun w c hf hd =>
    Option.eq_none_iff_forall_ne_some.mpr fun k hk => hnone ⟨w, c, k, hf, hd, hk⟩
  obtain ⟨hhalt, -⟩ := step_frame_of_no_handler h hno
  obtain ⟨hrunning, -⟩ := step_next_cases h
  rw [hhalt, hs.halt_of_running hrunning] at hset
  cases hset

/-- Settles O57: where no handler ran, a register other than `PC` that changed was named. -/
theorem flagsChangeOnlyAsAnOperand : Obligations.FlagsChangeOnlyAsAnOperand := by
  intro s t h hchange
  by_contra hnone
  have hno : ∀ w c, s.fetch = .ok w → decode s.params.regCode w = .ok (.signal c) →
      sigLookup s.params.sigTable c = none := fun w c hf hd =>
    Option.eq_none_iff_forall_ne_some.mpr fun k hk => hnone ⟨w, _, hf, hd, .inr ⟨c, k, rfl, hk⟩⟩
  obtain ⟨-, hregs⟩ := step_frame_of_no_handler h hno
  obtain ⟨w, i, hf, hd, hdest⟩ := hregs .flags (by decide) hchange
  exact hnone ⟨w, i, hf, hd, .inl hdest⟩

/-! ### Errors (R185, R188, R191) -/

theorem State.fetch_eq_error {s : State} {e : Error} (h : s.fetch = .error e) :
    s.params.memSize ≤ (s.readReg .pc).toNat + 1 ∧ e = .memoryFault (s.readReg .pc).toNat := by
  by_cases hin : (s.readReg .pc).toNat + 1 < s.params.memSize
  · rw [s.fetch_of_fits hin] at h
    cases h
  · rw [s.fetch_of_not_fits hin] at h
    cases h
    exact ⟨not_lt.mp hin, rfl⟩

/-- The error of a `Signal`: its code is unbound, or its handler failed (R160, R164). -/
theorem exec_signal_err {s t : State} {c : Byte} {e : Error} (hs : s.err = none) (h : exec (.signal c) s = .next t)
    (he : t.err = some e) :
    (sigLookup s.params.sigTable c = none ∧ e = .unknownSignal c) ∨
      ∃ k u, sigLookup s.params.sigTable c = some k ∧ s.runHandler k = .err e u := by
  cases hc : sigLookup s.params.sigTable c with
  | none =>
    rw [exec_signal_of_unbound hc] at h
    cases h
    cases he
    exact .inl ⟨rfl, rfl⟩
  | some k =>
    refine .inr ⟨k, ?_⟩
    cases hrun : s.runHandler k with
    | ok v u =>
      rw [exec_signal_of_ok hc hrun] at h
      cases h
      rw [State.err_of_runHandler_ok hrun, hs] at he
      cases he
    | err e' u =>
      rw [exec_signal_of_err hc hrun] at h
      cases h
      cases he
      exact ⟨u, rfl, rfl⟩

theorem exec_err_eq_stackFault {s t : State} {i : Instr} {e : Error} (hi : ∀ c, i ≠ .signal c) (hs : s.err = none)
    (h : exec i s = .next t) (he : t.err = some e) : e = .stackFault := by
  rcases (exec_frame hi h).err with hkept | hraised
  · rw [hkept, hs] at he
    cases he
  · exact Option.some.inj (he.symm.trans hraised)

/-- Settles O34, by the phase that raised the error, and in phase 5 by the instruction. -/
theorem errorsByInstruction : Obligations.ErrorsByInstruction := by
  intro s t e hs h he
  obtain ⟨hrunning, ⟨e', hf, rfl⟩ | ⟨w, e', hf, hd, rfl⟩ | ⟨w, i, u, hf, hd, hu, rfl⟩⟩ := step_next_cases h
  · cases he
    exact .inl (State.fetch_eq_error hf)
  · cases he
    exact .inr (.inl ⟨w, hf, hd⟩)
  · have herr : s.advancePc.err = none := hs.err_of_running hrunning
    rw [State.commit_err] at he
    refine .inr (.inr ⟨w, i, hf, hd, ?_⟩)
    cases i with
    | nop =>
      cases hu
      cases herr.symm.trans he
    | addRegister r1 r2 =>
      cases hu
      cases herr.symm.trans he
    | signal c => exact exec_signal_err herr hu he
    | push v => exact exec_err_eq_stackFault (by simp) herr hu he
    | popRegister r => exact exec_err_eq_stackFault (by simp) herr hu he
    | pushRegister r => exact exec_err_eq_stackFault (by simp) herr hu he
    | addStack => exact exec_err_eq_stackFault (by simp) herr hu he

/-- What a faulting stack instruction leaves before the raise: `SP` is two less after `AddStack`'s first pop alone
(D9). -/
def State.stackFaultBase (s : State) (i : Instr) : State :=
  if i = .addStack ∧ s.popAddr.toNat + 1 < s.params.memSize then s.writeReg .sp s.popAddr else s

/-- A push that faults leaves the state it began in, with `W16_PARTIAL = none` (R130). -/
theorem settle_push16_of_err {s t : State} {v : Word} (hs : s.err = none) (hp : s.params.w16Partial = .nothing)
    (h : (s.push16 v).settle = .next t) (he : t.err = some .stackFault) : t = s.raise .stackFault := by
  by_cases hin : s.pushAddr.toNat + 1 < s.params.memSize
  · rw [settle_push16_of_fits v hin] at h
    cases h
    cases hs.symm.trans he
  · rw [settle_push16_of_not_fits v hin, State.pushFailed_of_nothing s v hp] at h
    cases h
    rfl

theorem exec_of_stackFault {s t : State} {i : Instr} (hi : ∀ c, i ≠ .signal c) (hs : s.err = none)
    (hp : s.params.w16Partial = .nothing) (h : exec i s = .next t) (he : t.err = some .stackFault) :
    t = (s.stackFaultBase i).raise .stackFault := by
  cases i with
  | nop =>
    cases h
    cases hs.symm.trans he
  | push v => simpa [State.stackFaultBase] using settle_push16_of_err hs hp h he
  | popRegister r =>
    by_cases hin : s.popAddr.toNat + 1 < s.params.memSize
    · rw [exec_popRegister_of_fits r hin] at h
      cases h
      cases hs.symm.trans he
    · rw [exec_popRegister_of_not_fits r hin] at h
      cases h
      simp [State.stackFaultBase]
  | pushRegister r => simpa [State.stackFaultBase] using settle_push16_of_err hs hp h he
  | addRegister r1 r2 =>
    cases h
    cases hs.symm.trans he
  | signal c => exact absurd rfl (hi c)
  | addStack =>
    by_cases ha : s.popAddr.toNat + 1 < s.params.memSize
    · by_cases hb : s.sumAddr.toNat + 1 < s.params.memSize
      · rw [exec_addStack_of_fits ha hb] at h
        cases h
        cases hs.symm.trans he
      · rw [exec_addStack_of_second_not_fits ha hb] at h
        cases h
        simp [State.stackFaultBase, ha]
    · rw [exec_addStack_of_first_not_fits ha] at h
      cases h
      simp [State.stackFaultBase, ha]

section StackFaultBase

variable (s : State) (i : Instr)

@[simp] theorem State.stackFaultBase_mem : (s.stackFaultBase i).mem = s.mem := by
  unfold State.stackFaultBase; split <;> rfl

@[simp] theorem State.stackFaultBase_halt : (s.stackFaultBase i).halt = s.halt := by
  unfold State.stackFaultBase; split <;> rfl

theorem State.sameRegsExcept_stackFaultBase : s.SameRegsExcept [.sp] (s.stackFaultBase i) := by
  unfold State.stackFaultBase
  split
  · exact (State.SameRegsExcept.refl [.sp] s).writeReg (List.mem_singleton_self _) _
  · exact State.SameRegsExcept.refl _ s

theorem State.readReg_stackFaultBase_sp : (s.stackFaultBase i).readReg .sp =
    if i = .addStack ∧ s.popAddr.toNat + 1 < s.params.memSize then s.readReg .sp - 2 else s.readReg .sp := by
  unfold State.stackFaultBase
  split
  · exact State.readReg_writeReg_self ..
  · rfl

end StackFaultBase

/-- The advance writes `PC`, so a pop reads at the same address after it. -/
@[simp] theorem State.popAddr_advancePc (s : State) : s.advancePc.popAddr = s.popAddr := by
  rw [State.popAddr, s.readReg_advancePc_ne (by decide), State.popAddr]

@[simp] theorem State.pushAddr_advancePc (s : State) : s.advancePc.pushAddr = s.pushAddr :=
  s.readReg_advancePc_ne (by decide)

@[simp] theorem State.sumAddr_advancePc (s : State) : s.advancePc.sumAddr = s.sumAddr := by
  rw [State.sumAddr, State.popAddr_advancePc, State.sumAddr]

/-- Settles O35: the raise comes after the advance, in the state the faulting instruction leaves. -/
theorem stackFaultIsPrecise : Obligations.StackFaultIsPrecise := by
  intro s t w i hs hp hf hd h he hi
  obtain ⟨hrunning, -⟩ := step_next_cases h
  obtain ⟨u, hu, rfl⟩ := step_next_of_decode_ok h hf hd
  rw [State.commit_err] at he
  obtain rfl := exec_of_stackFault (s := s.advancePc) hi (hs.err_of_running hrunning) hp hu he
  have hregs := s.advancePc.sameRegsExcept_stackFaultBase i
  have hsp := s.advancePc.readReg_stackFaultBase_sp i
  rw [State.popAddr_advancePc, State.advancePc_params, s.readReg_advancePc_ne (q := .sp) (by decide)] at hsp
  rw [State.commit_raise]
  refine ⟨(hregs .pc (by decide)).trans s.readReg_advancePc_pc, State.stackFaultBase_mem _ _, fun r hr => ?_,
    State.stackFaultBase_halt _ _, hsp⟩
  obtain ⟨hpc, hne⟩ : r ≠ .pc ∧ r ≠ .sp := by simpa using hr
  exact (hregs r (by simpa using hne)).trans (s.readReg_advancePc_ne hpc)

/-! ### `PC` as an operand (R122, R123) -/

/-- Settles O33: the operands are read in the state with `PC` advanced, and what is written to `PC` stands. -/
theorem pcOperandsTransferControl : Obligations.PcOperandsTransferControl := by
  intro s w hs hf
  have hstep {i : Instr} {u : State} (hd : decode s.params.regCode w = .ok i) (hu : exec i s.advancePc = .next u) :=
    step_of_decode_ok hs hf hd hu
  have hadvance : s.advancePc.readReg .pc = s.readReg .pc + 2 := s.readReg_advancePc_pc
  refine ⟨fun hd hin => ?_, fun hd hin => ?_, fun r hr hd => ?_, fun r hr hd => ?_, fun hd => ?_⟩
  · rw [← State.popAddr_advancePc] at hin
    refine ⟨_, hstep hd (exec_popRegister_of_fits (s := s.advancePc) .pc hin), ?_⟩
    rw [State.readReg_commit, State.readReg_writeReg_self, State.popAddr_advancePc]
    rfl
  · rw [← State.pushAddr_advancePc] at hin
    refine ⟨_, hstep hd (settle_push16_of_fits (s := s.advancePc) _ hin), ?_, ?_⟩
    · rw [State.wordAt, State.commit_mem, ← State.pushAddr_advancePc, ← hadvance]
      exact State.wordAt_pushedAt ..
    · rw [State.readReg_commit, State.readReg_pushedAt_ne _ _ _ (by decide), hadvance]
  · refine ⟨_, hstep hd (exec_addRegister .pc r s.advancePc), ?_⟩
    rw [State.readReg_commit, State.readReg_writeReg_self, hadvance, s.readReg_advancePc_ne hr, add16]
  · refine ⟨_, hstep hd (exec_addRegister r .pc s.advancePc), ?_⟩
    rw [State.readReg_commit, State.readReg_writeReg_self, hadvance, s.readReg_advancePc_ne hr, add16]
  · refine ⟨_, hstep hd (exec_addRegister .pc .pc s.advancePc), ?_⟩
    rw [State.readReg_commit, State.readReg_writeReg_self, hadvance, add16]

/-! ### What a step reads of memory (R69, R137) -/

section OtherMemory

variable {s : State} {m : Memory}

/-- A failed push, run on any memory, differs in memory alone. -/
theorem State.pushFailed_setMem (s : State) (m : Memory) (v : Word) :
    ∃ m', (s.setMem m).pushFailed v = (s.pushFailed v).setMem m' := by
  by_cases h : s.pushAddr.toNat < s.params.memSize
  · cases hp : s.params.w16Partial with
    | nothing =>
      rw [State.pushFailed_of_nothing s v hp, State.pushFailed_of_nothing (s.setMem m) v hp]
      exact ⟨m, rfl⟩
    | lowByte =>
      rw [State.pushFailed_of_lowByte s v h hp, State.pushFailed_of_lowByte (s.setMem m) v h hp]
      exact ⟨_, rfl⟩
  · rw [State.pushFailed_of_beyond s v (not_lt.mp h), State.pushFailed_of_beyond (s.setMem m) v (not_lt.mp h)]
    exact ⟨m, rfl⟩

/-- Whether a push fits does not depend on what memory holds. -/
theorem settle_push16_setMem {t : State} {v : Word} (m : Memory) (h : (s.push16 v).settle = .next t) :
    ∃ m', ((s.setMem m).push16 v).settle = .next (t.setMem m') := by
  by_cases hin : s.pushAddr.toNat + 1 < s.params.memSize
  · rw [settle_push16_of_fits v hin] at h
    cases h
    exact ⟨_, settle_push16_of_fits (s := s.setMem m) v hin⟩
  · rw [settle_push16_of_not_fits v hin] at h
    cases h
    obtain ⟨m', hm'⟩ := s.pushFailed_setMem m v
    refine ⟨m', ?_⟩
    rw [settle_push16_of_not_fits (s := s.setMem m) v hin, hm']
    rfl

theorem State.wordAt_setMem_of_read {a : Nat} (hlow : Memory.read m a = Memory.read s.mem a)
    (hhigh : Memory.read m (a + 1) = Memory.read s.mem (a + 1)) : (s.setMem m).wordAt a = s.wordAt a := by
  rw [State.wordAt, State.setMem_mem, hlow, hhigh, State.wordAt]

/-- An instruction but `Signal` reads two words of memory at most, those below `SP`. -/
theorem exec_setMem {t : State} {i : Instr} (hi : ∀ c, i ≠ .signal c)
    (hpop : (s.setMem m).wordAt s.popAddr.toNat = s.wordAt s.popAddr.toNat)
    (hsum : (s.setMem m).wordAt s.sumAddr.toNat = s.wordAt s.sumAddr.toNat) (h : exec i s = .next t) :
    ∃ m', exec i (s.setMem m) = .next (t.setMem m') := by
  cases i with
  | nop =>
    cases h
    exact ⟨m, rfl⟩
  | push v => exact settle_push16_setMem m h
  | popRegister r =>
    refine ⟨m, ?_⟩
    by_cases hin : s.popAddr.toNat + 1 < s.params.memSize
    · rw [exec_popRegister_of_fits r hin, ← hpop] at h
      cases h
      exact exec_popRegister_of_fits (s := s.setMem m) r hin
    · rw [exec_popRegister_of_not_fits r hin] at h
      cases h
      exact exec_popRegister_of_not_fits (s := s.setMem m) r hin
  | pushRegister r => exact settle_push16_setMem m h
  | addRegister r1 r2 =>
    cases h
    exact ⟨m, rfl⟩
  | signal c => exact absurd rfl (hi c)
  | addStack =>
    by_cases ha : s.popAddr.toNat + 1 < s.params.memSize
    · by_cases hb : s.sumAddr.toNat + 1 < s.params.memSize
      · rw [exec_addStack_of_fits ha hb, ← hpop, ← hsum] at h
        cases h
        exact ⟨_, exec_addStack_of_fits (s := s.setMem m) ha hb⟩
      · rw [exec_addStack_of_second_not_fits ha hb] at h
        cases h
        exact ⟨m, exec_addStack_of_second_not_fits (s := s.setMem m) ha hb⟩
    · rw [exec_addStack_of_first_not_fits ha] at h
      cases h
      exact ⟨m, exec_addStack_of_first_not_fits (s := s.setMem m) ha⟩

theorem State.fetch_setMem
    (hpc : (s.setMem m).wordAt (s.readReg .pc).toNat = s.wordAt (s.readReg .pc).toNat) :
    (s.setMem m).fetch = s.fetch := by
  by_cases hin : (s.readReg .pc).toNat + 1 < s.params.memSize
  · rw [s.fetch_of_fits hin]
    exact ((s.setMem m).fetch_of_fits hin).trans (congrArg Except.ok hpc)
  · rw [s.fetch_of_not_fits hin]
    exact (s.setMem m).fetch_of_not_fits hin

theorem State.commit_setMem (s : State) (m : Memory) : (s.setMem m).commit = s.commit.setMem m := by
  simp only [State.commit, State.setMem_status, State.setMem_halt, apply_ite (State.setMem · m)]
  rfl

end OtherMemory

/-- Settles O38: the fetch and phase 5 on the other memory read the same words, and the rest of a step reads none. -/
theorem stepReadsOnlyCodeAndStackWords : Obligations.StepReadsOnlyCodeAndStackWords := by
  intro s t m hreads hsignal h
  simp only [List.forall_mem_cons, List.not_mem_nil, false_imp_iff, implies_true, and_true] at hreads
  obtain ⟨hpc, hpc', hpop, hpop', hsum, hsum'⟩ := hreads
  have hfetch := State.fetch_setMem (State.wordAt_setMem_of_read hpc hpc')
  obtain ⟨hs, ⟨e, hf, rfl⟩ | ⟨w, e, hf, hd, rfl⟩ | ⟨w, i, u, hf, hd, hu, rfl⟩⟩ := step_next_cases h
  · exact ⟨_, step_of_fetch_error (s := s.setMem m) hs (hfetch.trans hf), rfl, State.SameControl.refl _⟩
  · exact ⟨_, step_of_decode_error (s := s.setMem m) hs (hfetch.trans hf) hd, rfl, State.SameControl.refl _⟩
  · have hi : ∀ c, i ≠ .signal c := fun c hc => hsignal w c hf (hc ▸ hd)
    have hpopWord : (s.advancePc.setMem m).wordAt s.advancePc.popAddr.toNat =
        s.advancePc.wordAt s.advancePc.popAddr.toNat := by
      rw [State.popAddr_advancePc]
      exact State.wordAt_setMem_of_read (s := s.advancePc) hpop hpop'
    have hsumWord : (s.advancePc.setMem m).wordAt s.advancePc.sumAddr.toNat =
        s.advancePc.wordAt s.advancePc.sumAddr.toNat := by
      rw [State.sumAddr_advancePc]
      exact State.wordAt_setMem_of_read (s := s.advancePc) hsum hsum'
    obtain ⟨m', hm'⟩ := exec_setMem hi hpopWord hsumWord hu
    have hstep := step_of_decode_ok (s := s.setMem m) hs (hfetch.trans hf) hd hm'
    rw [State.commit_setMem] at hstep
    exact ⟨_, hstep, rfl, State.sameControl_setMem _ m'⟩

end Sys2Proof.Machine
end

section
/-! The encoding again (30_encoding.md): the words by shifts and ors (R93), the register codes (10_state.md R22, R38),
the errors of the decoder (R86 to R91) and the canonical words (R95). -/

namespace Sys2Proof

open Sys2Proof.Machine

/-! ### The words of the table (R93) -/

/-- Two joined fields, extended, are the upper one shifted past the lower one. -/
theorem setWidth_append_eq_or {m n : Nat} (k : Nat) (x : BitVec m) (y : BitVec n) :
    (x ++ y).setWidth k = (x.setWidth k <<< n) ||| y.setWidth k := by
  ext i hi
  simp only [BitVec.getElem_setWidth, BitVec.getElem_or, BitVec.getElem_shiftLeft, BitVec.getLsbD_append]
  split
  · next h => simp [h]
  · next h => simp [h, BitVec.getLsbD_of_ge y i (not_lt.mp h)]

theorem joinBytes_eq_or (hi lo : Byte) : joinBytes hi lo = (hi.setWidth 16 <<< 8) ||| lo.setWidth 16 :=
  (BitVec.setWidth_eq _).symm.trans (setWidth_append_eq_or 16 hi lo)

/-- A code of a table of at most 16 roles keeps its number when its field is extended. -/
theorem setWidth_ofNat_regCodeOf {rc : List Reg} {r : Reg} {m : Nat} (hlen : rc.length ≤ 2 ^ m) (h : r ∈ rc) :
    (BitVec.ofNat m (regCodeOf rc r)).setWidth 16 = BitVec.ofNat 16 (regCodeOf rc r) := by
  apply BitVec.eq_of_toNat_eq
  have hlt : regCodeOf rc r < 2 ^ m := (regCodeOf_lt_length h).trans_le hlen
  rw [BitVec.toNat_setWidth, BitVec.toNat_ofNat, BitVec.toNat_ofNat, Nat.mod_eq_of_lt hlt]

theorem encode_addRegister_eq_or {rc : List Reg} {r1 r2 : Reg} (hlen : rc.length ≤ 16) (h1 : r1 ∈ rc) (h2 : r2 ∈ rc) :
    encode rc (.addRegister r1 r2) =
      (BitVec.ofNat 16 (regCodeOf rc r1) <<< 12) ||| (BitVec.ofNat 16 (regCodeOf rc r2) <<< 8) ||| 0x04 := by
  rw [encode, joinBytes_eq_or, Instr.argument, setWidth_append_eq_or, setWidth_ofNat_regCodeOf hlen h1,
    setWidth_ofNat_regCodeOf hlen h2, BitVec.shiftLeft_or_distrib, ← BitVec.shiftLeft_add]
  rfl

/-- Settles O2, by the shift that joins two bytes and, for format RR, the one that joins two nibbles. -/
theorem encodeGivesTheWordsOfTheTable : Obligations.EncodeGivesTheWordsOfTheTable := by
  intro rc hrc v r r1 r2
  have hlen : rc.length = 8 := hrc.1
  have hbyte := setWidth_ofNat_regCodeOf (m := 8) (by omega) (hrc.mem r)
  refine ⟨encode_nop rc, joinBytes_eq_or v 0x01, ?_, ?_,
    encode_addRegister_eq_or (by omega) (hrc.mem r1) (hrc.mem r2), joinBytes_eq_or v 0x09, encode_addStack rc⟩
  · rw [← hbyte]
    exact joinBytes_eq_or _ 0x02
  · rw [← hbyte]
    exact joinBytes_eq_or _ 0x03

/-! ### The register codes (R22, R38) -/

/-- A bijective table has a role at the codes below 8 and at no other. -/
theorem fromCode_eq_none_iff {rc : List Reg} (h : RegCode.WellFormed rc) (c : Byte) :
    fromCode rc c = none ↔ 8 ≤ c.toNat := by
  rw [fromCode, List.getElem?_eq_none_iff, h.1]

/-- Settles O5: a role is found at its code, and no role stands twice, so its code is where it is found. -/
theorem registerCodesAreABijection : Obligations.RegisterCodesAreABijection := by
  intro rc hrc
  have ⟨hlen, hnodup⟩ := hrc
  refine ⟨fun r => ?_, fun c hc => ?_, fun c => (fromCode_eq_none_iff hrc c).mpr⟩
  · have hlt : regCodeOf rc r < 8 := hlen ▸ regCodeOf_lt_length (hrc.mem r)
    have hcode : (BitVec.ofNat 8 (regCodeOf rc r)).toNat = regCodeOf rc r := by
      rw [BitVec.toNat_ofNat, Nat.mod_eq_of_lt (by omega)]
    refine ⟨hlt, ?_⟩
    rw [fromCode, hcode, getElem?_regCodeOf (hrc.mem r)]
  · have hin : c.toNat < rc.length := by omega
    exact ⟨rc[c.toNat], List.getElem?_eq_getElem hin, hnodup.idxOf_getElem c.toNat hin⟩

/-- Settles O4: the list of D1 at each of its positions, and no role beyond them. -/
theorem fromCodeIsTheRegisterTable : Obligations.FromCodeIsTheRegisterTable := by
  intro c
  refine ⟨?_, ?_, ?_, ?_, ?_, ?_, ?_, ?_, (fromCode_eq_none_iff (by decide) c).mpr⟩ <;>
    rintro rfl <;> rfl

/-- Settles O9: the decoder evaluated at each word. -/
theorem sampleWordsDecode : Obligations.SampleWordsDecode := by
  unfold Obligations.SampleWordsDecode
  decide

/-! ### The errors of the decoder (R86, R88, R89, R91) -/

section Errors

variable {rc : List Reg} {c : Byte} {e : Error}

theorem resolveReg_eq_error (h : RegCode.WellFormed rc) :
    resolveReg rc c = .error e ↔ 8 ≤ c.toNat ∧ e = .unknownRegister c := by
  rw [← fromCode_eq_none_iff h, resolveReg]
  cases fromCode rc c <;> simp [eq_comm]

theorem decodeOneReg_eq_error (mk : Reg → Instr) :
    decodeOneReg rc c mk = .error e ↔ resolveReg rc c = .error e := by
  unfold decodeOneReg
  split
  · next r h => simp [h]
  · next h => simp [h]

/-- The second register's error is reported only where the first is found (R89). -/
theorem decodeTwoRegs_eq_error (mk : Reg → Reg → Instr) (h : RegCode.WellFormed rc) :
    decodeTwoRegs rc c mk = .error e ↔
      resolveReg rc (highNibble c) = .error e ∨
        (highNibble c).toNat < 8 ∧ resolveReg rc (lowNibble c) = .error e := by
  cases h1 : resolveReg rc (highNibble c) with
  | error e1 =>
    obtain ⟨hlarge, -⟩ := (resolveReg_eq_error h).mp h1
    simp [decodeTwoRegs_of_high_error mk h1, hlarge.not_gt]
  | ok r1 =>
    have hsmall : (highNibble c).toNat < 8 := by
      by_contra hlarge
      rw [(resolveReg_eq_error h).mpr ⟨not_lt.mp hlarge, rfl⟩] at h1
      cases h1
    cases h2 : resolveReg rc (lowNibble c) with
    | error e2 => simp [decodeTwoRegs_of_low_error mk h1 h2, hsmall]
    | ok r2 => simp [decodeTwoRegs_of_ok mk h1 h2]

end Errors

theorem highNibble_argField (w : Word) : highNibble (argField w) = BitVec.ofNat 8 (w.toNat / 4096) := by
  have hnum : (highNibble (argField w)).toNat = w.toNat / 4096 := by
    rw [highNibble_toNat, argField_toNat, Nat.div_div_eq_div_mul]
  rw [← hnum, BitVec.ofNat_toNat, BitVec.setWidth_eq]

theorem lowNibble_argField (w : Word) : lowNibble (argField w) = BitVec.ofNat 8 (w.toNat / 256 % 16) := by
  have hnum : (lowNibble (argField w)).toNat = w.toNat / 256 % 16 := by
    rw [lowNibble_toNat, argField_toNat]
  rw [← hnum, BitVec.ofNat_toNat, BitVec.setWidth_eq]

/-- Settles O7, opcode by opcode: the formats without register codes have no error of their own. -/
theorem decodeRejectsExactlyTheIllegalWords : Obligations.DecodeRejectsExactlyTheIllegalWords := by
  intro rc hrc w e
  have hop {n : Nat} (h : w.toNat % 256 = n) : opcodeField w = BitVec.ofNat 8 n := opcodeField_eq_of_mod h
  have hone : resolveReg rc (argField w) = .error e ↔
      8 ≤ w.toNat / 256 ∧ e = .unknownRegister (BitVec.ofNat 8 (w.toNat / 256)) := by
    rw [resolveReg_eq_error hrc, argField_toNat, ← argField_eq]
  have hhigh : resolveReg rc (highNibble (argField w)) = .error e ↔
      8 ≤ w.toNat / 4096 ∧ e = .unknownRegister (BitVec.ofNat 8 (w.toNat / 4096)) := by
    rw [resolveReg_eq_error hrc, ← highNibble_argField, highNibble_toNat, argField_toNat, Nat.div_div_eq_div_mul]
  have hlow : resolveReg rc (lowNibble (argField w)) = .error e ↔
      8 ≤ w.toNat / 256 % 16 ∧ e = .unknownRegister (BitVec.ofNat 8 (w.toNat / 256 % 16)) := by
    rw [resolveReg_eq_error hrc, ← lowNibble_argField, lowNibble_toNat, argField_toNat]
  have hfirst : (highNibble (argField w)).toNat = w.toNat / 4096 := by
    rw [highNibble_toNat, argField_toNat, Nat.div_div_eq_div_mul]
  by_cases hlegal : w.toNat % 256 ∈ [0x00, 0x01, 0x02, 0x03, 0x04, 0x09, 0x0F]
  · simp only [List.mem_cons, List.not_mem_nil, or_false] at hlegal
    rcases hlegal with h | h | h | h | h | h | h
    · simp [decode_of_opcode_nop (hop h), h]
    · simp [decode_of_opcode_push (hop h), h]
    · simp [decode_of_opcode_popRegister (hop h), decodeOneReg_eq_error, hone, h]
    · simp [decode_of_opcode_pushRegister (hop h), decodeOneReg_eq_error, hone, h]
    · simp [decode_of_opcode_addRegister (hop h), decodeTwoRegs_eq_error _ hrc, hhigh, hlow, hfirst, h]
    · simp [decode_of_opcode_signal (hop h), h]
    · simp [decode_of_opcode_addStack (hop h), h]
  · have hnone (n : Nat) (hn : n ∈ [0x00, 0x01, 0x02, 0x03, 0x04, 0x09, 0x0F]) : w.toNat % 256 ≠ n :=
      fun heq => hlegal (heq ▸ hn)
    rw [decode_of_opcode_unknown (by rwa [opcodeField_toNat]), hop rfl]
    simp [hnone, eq_comm]

/-! ### The canonical words (R95) -/

/-- The fields make up the word (R81, R83). -/
theorem joinBytes_fields (w : Word) : joinBytes (argField w) (opcodeField w) = w := joinBytes_highByte_lowByte w

section Canonical

variable {rc : List Reg} {c : Byte} {i : Instr}

/-- A register found at a code has that code, in a bijective table (R22). -/
theorem regCodeOf_of_resolveReg {r : Reg} (h : RegCode.WellFormed rc) (hr : resolveReg rc c = .ok r) :
    regCodeOf rc r = c.toNat := by
  obtain ⟨hlen, hnodup⟩ := h
  by_cases hin : c.toNat < rc.length
  · rw [resolveReg_of_some rfl (List.getElem?_eq_getElem hin)] at hr
    cases hr
    exact hnodup.idxOf_getElem c.toNat hin
  · rw [resolveReg_of_none rfl (List.getElem?_eq_none (not_lt.mp hin))] at hr
    cases hr

/-- Format R gives its argument byte back (R88, R93). -/
theorem ofNat_regCodeOf_of_resolveReg {r : Reg} (h : RegCode.WellFormed rc) (hr : resolveReg rc c = .ok r) :
    BitVec.ofNat 8 (regCodeOf rc r) = c := by
  rw [regCodeOf_of_resolveReg h hr, BitVec.ofNat_toNat, BitVec.setWidth_eq]

/-- Format RR gives its argument byte back, nibble by nibble (R89, R93). -/
theorem append_regCodeOf_of_resolveReg {r1 r2 : Reg} (h : RegCode.WellFormed rc)
    (h1 : resolveReg rc (highNibble c) = .ok r1) (h2 : resolveReg rc (lowNibble c) = .ok r2) :
    BitVec.ofNat 4 (regCodeOf rc r1) ++ BitVec.ofNat 4 (regCodeOf rc r2) = c := by
  apply BitVec.eq_of_toNat_eq
  have hbyte := c.isLt
  rw [regCodeOf_of_resolveReg h h1, regCodeOf_of_resolveReg h h2, highNibble_toNat, lowNibble_toNat,
    toNat_append_nibbles (by omega) (by omega)]
  omega

theorem decodeOneReg_eq_ok {mk : Reg → Instr} (h : decodeOneReg rc c mk = .ok i) :
    ∃ r, resolveReg rc c = .ok r ∧ i = mk r := by
  cases hr : resolveReg rc c with
  | error e => cases (decodeOneReg_of_error mk hr).symm.trans h
  | ok r => exact ⟨r, rfl, Except.ok.inj (h.symm.trans (decodeOneReg_of_ok mk hr))⟩

theorem decodeTwoRegs_eq_ok {mk : Reg → Reg → Instr} (h : decodeTwoRegs rc c mk = .ok i) :
    ∃ r1 r2, resolveReg rc (highNibble c) = .ok r1 ∧ resolveReg rc (lowNibble c) = .ok r2 ∧ i = mk r1 r2 := by
  cases h1 : resolveReg rc (highNibble c) with
  | error e => cases (decodeTwoRegs_of_high_error mk h1).symm.trans h
  | ok r1 =>
    cases h2 : resolveReg rc (lowNibble c) with
    | error e => cases (decodeTwoRegs_of_low_error mk h1 h2).symm.trans h
    | ok r2 => exact ⟨r1, r2, rfl, rfl, Except.ok.inj (h.symm.trans (decodeTwoRegs_of_ok mk h1 h2))⟩

/-- Encoding what was decoded gives both fields back, but a zero argument for the formats that ignore it (R95, D4). -/
theorem encode_of_decode {w : Word} (hrc : RegCode.WellFormed rc) (hd : decode rc w = .ok i) :
    encode rc i = joinBytes (if w.toNat % 256 = 0x00 ∨ w.toNat % 256 = 0x0F then 0 else argField w)
      (opcodeField w) := by
  have hop {n : Nat} (h : w.toNat % 256 = n) : opcodeField w = BitVec.ofNat 8 n := opcodeField_eq_of_mod h
  by_cases hlegal : w.toNat % 256 ∈ [0x00, 0x01, 0x02, 0x03, 0x04, 0x09, 0x0F]
  · simp only [List.mem_cons, List.not_mem_nil, or_false] at hlegal
    rcases hlegal with h | h | h | h | h | h | h
    · rw [decode_of_opcode_nop (hop h)] at hd
      cases hd
      rw [if_pos (.inl h), hop h]
      rfl
    · rw [decode_of_opcode_push (hop h)] at hd
      cases hd
      rw [if_neg (by omega), hop h]
      rfl
    · rw [decode_of_opcode_popRegister (hop h)] at hd
      obtain ⟨r, hr, rfl⟩ := decodeOneReg_eq_ok hd
      rw [if_neg (by omega), hop h, encode, Instr.argument, ofNat_regCodeOf_of_resolveReg hrc hr]
      rfl
    · rw [decode_of_opcode_pushRegister (hop h)] at hd
      obtain ⟨r, hr, rfl⟩ := decodeOneReg_eq_ok hd
      rw [if_neg (by omega), hop h, encode, Instr.argument, ofNat_regCodeOf_of_resolveReg hrc hr]
      rfl
    · rw [decode_of_opcode_addRegister (hop h)] at hd
      obtain ⟨r1, r2, hr1, hr2, rfl⟩ := decodeTwoRegs_eq_ok hd
      rw [if_neg (by omega), hop h, encode, Instr.argument, append_regCodeOf_of_resolveReg hrc hr1 hr2]
      rfl
    · rw [decode_of_opcode_signal (hop h)] at hd
      cases hd
      rw [if_neg (by omega), hop h]
      rfl
    · rw [decode_of_opcode_addStack (hop h)] at hd
      cases hd
      rw [if_pos (.inr h), hop h]
      rfl
  · cases (decode_of_opcode_unknown (by rwa [opcodeField_toNat])).symm.trans hd

end Canonical

/-- The argument field of a word is zero when the word is below 256. -/
theorem argField_eq_zero_iff (w : Word) : argField w = 0 ↔ w.toNat / 256 = 0 := by
  rw [← BitVec.toNat_inj, argField_toNat]
  exact Iff.rfl

/-- Settles O8: the word is given back when the argument it was given back with is its own. -/
theorem encodeOfDecodeIsTheCanonicalWord : Obligations.EncodeOfDecodeIsTheCanonicalWord := by
  intro rc hrc w i hd
  have hencode := encode_of_decode hrc hd
  refine ⟨?_, fun h => ?_, fun h => ?_⟩
  · by_cases hignored : w.toNat % 256 = 0x00 ∨ w.toNat % 256 = 0x0F
    · rw [if_pos hignored] at hencode
      rw [← argField_eq_zero_iff, hencode]
      constructor
      · rintro hword -
        rw [← hword, argField_joinBytes]
      · intro hzero
        rw [← hzero hignored, joinBytes_fields]
    · rw [if_neg hignored, joinBytes_fields] at hencode
      simp [hencode, hignored]
  · rw [hencode, if_pos (.inl h), opcodeField_eq_of_mod h]
    decide
  · rw [hencode, if_pos (.inr h), opcodeField_eq_of_mod h]
    decide

end Sys2Proof
end

section
/-! The adder (42_add.md R150) and the 16-bit write (20_memory.md R54, R59, R60). -/

namespace Sys2Proof.Machine

/-! ### The adder (R150) -/

/-- A number and its complement to 65536 add up to zero. -/
theorem add16_complement (a : Word) : add16 a (BitVec.ofNat 16 (65536 - a.toNat)) = 0 := by
  apply BitVec.eq_of_toNat_eq
  have hlt := a.isLt
  rw [add16_toNat, BitVec.toNat_ofNat, Nat.add_mod_mod, Nat.add_sub_cancel' hlt.le]
  rfl

/-- The sum of the same bits read as signed numbers. -/
theorem add16_eq_ofInt (a b : Word) : add16 a b = BitVec.ofInt 16 (a.toInt + b.toInt) := by
  rw [BitVec.ofInt_add, BitVec.ofInt_toInt, BitVec.ofInt_toInt, add16]

/-- Settles O10: the laws of addition modulo 65536, and the corners by evaluation. -/
theorem adderWrapsModulo65536 : Obligations.AdderWrapsModulo65536 :=
  ⟨add16_toNat, BitVec.add_comm, BitVec.add_assoc, fun a => BitVec.add_zero a, fun a _ => add16_complement a,
    add16_eq_ofInt, by decide, by decide, by decide, by decide, by decide⟩

/-! ### The 16-bit write (R54, R59, R60) -/

theorem lowByte_toNat (v : Word) : (lowByte v).toNat = v.toNat % 256 := opcodeField_toNat v

theorem highByte_toNat (v : Word) : (highByte v).toNat = v.toNat / 256 := argField_toNat v

/-- Settles O13: the write that fits, the one out of range, and the one whose low byte alone is in range. -/
theorem wordWriteIsLittleEndianAndWhole : Obligations.WordWriteIsLittleEndianAndWhole := by
  intro s a v
  refine ⟨fun hin => ?_, fun hout => ?_, fun hlast hp => ?_, fun hlast hp => ?_⟩
  · refine ⟨_, s.memWrite16_writeWord v hin, ?_, ?_, s.sameMemExcept_writeWord a v, rfl, s.sameControl_setMem _⟩
    · rw [State.setMem_mem, Memory.read_writeWord_low, lowByte_toNat]
    · rw [State.setMem_mem, Memory.read_writeWord_high, highByte_toNat]
  · rw [s.memWrite16_of_not_fits a v (by omega), if_neg hout.not_gt]
  · rw [s.memWrite16_of_last v hlast, s.partialWrite_nothing v a hp]
  · refine ⟨_, s.memWrite16_of_last v hlast, ?_⟩
    rw [s.partialWrite_lowByte v a hp]
    refine ⟨?_, s.sameMemExcept_write a _, rfl, s.sameControl_setMem _⟩
    rw [State.setMem_mem, Memory.read_write_self, lowByte_toNat]

/-- Settles O15: memory ends at 65536 at the latest, so the second byte of the access is out of range. -/
theorem noAccessWrapsAtTheTop : Obligations.NoAccessWrapsAtTheTop := by
  intro s v _
  refine ⟨fun hfull => ?_, fun hsmall => ?_⟩
  · have hlast : 0xFFFF + 1 = s.params.memSize := hfull.symm
    refine ⟨?_, _, s.memWrite16_of_last v hlast⟩
    rw [s.memRead16_of_not_fits 0xFFFF (by omega), if_pos (by omega)]
  · have hout : ¬ 0xFFFF < s.params.memSize := by omega
    exact ⟨by rw [s.memRead16_of_not_fits 0xFFFF (by omega), if_neg hout],
      by rw [s.memWrite16_of_not_fits 0xFFFF v (by omega), if_neg hout]⟩

end Sys2Proof.Machine
end

section
/-! The host's helpers (20_memory.md R61, R62): the bytes moved or written before the first one out of range. -/

namespace Sys2Proof.Machine

/-! ### `copy` (R61) -/

/-- A copy whose first byte is in range at both ends moves it and goes on. -/
theorem State.copy_succ_of_fits {s : State} {src dst : Nat} (n : Nat) (hsrc : src < s.params.memSize)
    (hdst : dst < s.params.memSize) :
    State.copy src dst (n + 1) s =
      State.copy (src + 1) (dst + 1) n (s.setMem (Memory.write s.mem dst (Memory.read s.mem src))) := by
  rw [State.copy, s.memRead8_of_fits src hsrc]
  simp only [s.memWrite8_of_fits dst _ hdst, Result.andThen]

theorem State.copy_succ_of_src_not_fits {s : State} {src : Nat} (dst n : Nat) (hsrc : ¬ src < s.params.memSize) :
    State.copy src dst (n + 1) s = .err (.memoryFault src) s := by
  rw [State.copy, s.memRead8_of_not_fits src hsrc]

theorem State.copy_succ_of_dst_not_fits {s : State} {src dst : Nat} (n : Nat) (hsrc : src < s.params.memSize)
    (hdst : ¬ dst < s.params.memSize) : State.copy src dst (n + 1) s = .err (.memoryFault dst) s := by
  rw [State.copy, s.memRead8_of_fits src hsrc]
  simp only [s.memWrite8_of_not_fits dst _ hdst, Result.andThen]

/-- The byte of the memory before a copy that its `i`-th write stores: with `dst` above `src` the bytes between them
come round again. -/
def copySource (src dst i : Nat) : Nat := src + if dst ≤ src then i else i % (dst - src)

theorem copySource_zero (src dst : Nat) : copySource src dst 0 = src := by
  simp [copySource]

/-- Each later write takes the byte one further on, or, where that is the byte the first write stored, the first
write's own source. -/
theorem copySource_succ (src dst i : Nat) :
    (copySource (src + 1) (dst + 1) i = dst ∧ copySource src dst (i + 1) = src) ∨
      (copySource (src + 1) (dst + 1) i ≠ dst ∧ copySource (src + 1) (dst + 1) i = copySource src dst (i + 1)) := by
  unfold copySource
  by_cases hle : dst ≤ src
  · rw [if_pos (by omega), if_pos hle]
    omega
  · obtain ⟨d, rfl⟩ : ∃ d, dst = src + (d + 1) := ⟨dst - src - 1, by omega⟩
    have hperiod : src + (d + 1) - src = d + 1 := Nat.add_sub_cancel_left ..
    rw [if_neg (by omega), if_neg hle, Nat.add_sub_add_right, hperiod]
    have hlt : i % (d + 1) < d + 1 := Nat.mod_lt i (Nat.succ_pos d)
    have hsucc : (i + 1) % (d + 1) = if i % (d + 1) = d then 0 else i % (d + 1) + 1 := by
      rw [← Nat.mod_add_mod]
      split
      · next hlast => rw [hlast, Nat.mod_self]
      · exact Nat.mod_eq_of_lt (by omega)
    rw [hsucc]
    split <;> omega

/-- What a memory holds after `k` bytes were moved from `src` to `dst` by ascending address. -/
def Memory.Copied (src dst k : Nat) (m m' : Memory) : Prop :=
  (∀ i, i < k → Memory.read m' (dst + i) = Memory.read m (copySource src dst i)) ∧
    ∀ a, (a < dst ∨ dst + k ≤ a) → Memory.read m' a = Memory.read m a

/-- One byte moved first, the others after it. -/
theorem Memory.Copied.cons {src dst k : Nat} {m m' : Memory}
    (h : Memory.Copied (src + 1) (dst + 1) k (Memory.write m dst (Memory.read m src)) m') :
    Memory.Copied src dst (k + 1) m m' := by
  obtain ⟨hmoved, hkept⟩ := h
  refine ⟨fun i hi => ?_, fun a ha => ?_⟩
  · cases i with
    | zero => rw [Nat.add_zero, hkept dst (by omega), Memory.read_write_self, copySource_zero]
    | succ i =>
      have hlater := hmoved i (by omega)
      rw [Nat.add_right_comm, Nat.add_assoc] at hlater
      rw [hlater]
      obtain ⟨hfirst, hsource⟩ | ⟨hother, hsource⟩ := copySource_succ src dst i
      · rw [hfirst, hsource, Memory.read_write_self]
      · rw [Memory.read_write_ne _ _ hother, hsource]
  · rw [hkept a (by omega), Memory.read_write_ne _ _ (by omega)]

theorem State.copy_of_fits (k : Nat) : ∀ (src dst : Nat) (s : State), k ≤ s.params.memSize - src →
    k ≤ s.params.memSize - dst →
    ∃ m, State.copy src dst k s = .ok () (s.setMem m) ∧ Memory.Copied src dst k s.mem m := by
  induction k with
  | zero => exact fun src dst s _ _ => ⟨s.mem, rfl, by simp [Memory.Copied]⟩
  | succ k ih =>
    intro src dst s hsrc hdst
    obtain ⟨m, hcopy, hcopied⟩ := ih (src + 1) (dst + 1)
      (s.setMem (Memory.write s.mem dst (Memory.read s.mem src)))
      (by rw [State.setMem_params]; omega) (by rw [State.setMem_params]; omega)
    refine ⟨m, ?_, hcopied.cons⟩
    rw [State.copy_succ_of_fits k (by omega) (by omega), hcopy]
    rfl

/-- A copy is its first bytes, then the others. -/
theorem State.copy_add (k j : Nat) : ∀ (src dst : Nat) (s : State), State.copy src dst (k + j) s =
    (State.copy src dst k s).andThen fun _ t => State.copy (src + k) (dst + k) j t := by
  induction k with
  | zero => intro src dst s; simp [State.copy, Result.andThen]
  | succ k ih =>
    intro src dst s
    rw [Nat.add_right_comm]
    by_cases hsrc : src < s.params.memSize
    · by_cases hdst : dst < s.params.memSize
      · rw [State.copy_succ_of_fits _ hsrc hdst, State.copy_succ_of_fits _ hsrc hdst, ih]
        simp only [Nat.add_assoc, Nat.add_comm 1 k]
      · rw [State.copy_succ_of_dst_not_fits _ hsrc hdst, State.copy_succ_of_dst_not_fits _ hsrc hdst,
          Result.andThen]
    · rw [State.copy_succ_of_src_not_fits _ _ hsrc, State.copy_succ_of_src_not_fits _ _ hsrc, Result.andThen]

/-- How a copy of `n` bytes ends of which the first `k` are in range at both ends and the next is not. -/
theorem State.copy_ends {s : State} {src dst n k : Nat}
    (hk : k = min n (min (s.params.memSize - src) (s.params.memSize - dst))) :
    ∃ m, Memory.Copied src dst k s.mem m ∧ State.copy src dst n s =
      if k = n then .ok () (s.setMem m)
      else .err (.memoryFault (if src + k < s.params.memSize then dst + k else src + k)) (s.setMem m) := by
  obtain ⟨m, hcopy, hcopied⟩ := State.copy_of_fits k src dst s (by omega) (by omega)
  refine ⟨m, hcopied, ?_⟩
  by_cases hall : k = n
  · rw [if_pos hall, ← hall, hcopy]
  · obtain ⟨j, rfl⟩ : ∃ j, n = k + (j + 1) := ⟨n - k - 1, by omega⟩
    rw [if_neg hall, State.copy_add, hcopy, Result.andThen]
    by_cases hsrc : src + k < s.params.memSize
    · rw [if_pos hsrc]
      exact State.copy_succ_of_dst_not_fits (s := s.setMem m) j hsrc (by rw [State.setMem_params]; omega)
    · rw [if_neg hsrc]
      exact State.copy_succ_of_src_not_fits (s := s.setMem m) _ j hsrc

/-- Settles O16: the bytes in range are moved, and the next one decides the failure. -/
theorem copyMovesBytesInAscendingOrder : Obligations.CopyMovesBytesInAscendingOrder := by
  intro s src dst n k hk
  obtain ⟨m, ⟨hmoved, hkept⟩, hcopy⟩ := State.copy_ends hk
  have hstate : (State.copy src dst n s).state = s.setMem m := by
    rw [hcopy]
    split <;> rfl
  rw [hstate]
  refine ⟨rfl, s.sameControl_setMem m, hmoved, hkept, fun hall => ?_, fun hpart hsrc => ?_, fun hpart hsrc => ?_⟩
  · exact ⟨_, by rw [hcopy, if_pos hall]⟩
  · exact ⟨_, by rw [hcopy, if_neg hpart.ne, if_neg hsrc.not_gt]⟩
  · exact ⟨_, by rw [hcopy, if_neg hpart.ne, if_pos hsrc]⟩

/-! ### `loadBulk` (R62) -/

/-- What a memory holds after the bytes were written from `base` on. -/
def Memory.Loaded (bytes : List Byte) (base : Nat) (m m' : Memory) : Prop :=
  (∀ i b, bytes[i]? = some b → Memory.read m' (base + i) = b) ∧
    ∀ a, (a < base ∨ base + bytes.length ≤ a) → Memory.read m' a = Memory.read m a

theorem Memory.Loaded.cons {b : Byte} {rest : List Byte} {base : Nat} {m m' : Memory}
    (h : Memory.Loaded rest (base + 1) (Memory.write m base b) m') : Memory.Loaded (b :: rest) base m m' := by
  obtain ⟨hwritten, hkept⟩ := h
  refine ⟨fun i c hc => ?_, fun a ha => ?_⟩
  · cases i with
    | zero =>
      cases hc
      rw [Nat.add_zero, hkept base (by omega), Memory.read_write_self]
    | succ i =>
      have hlater := hwritten i c hc
      rwa [Nat.add_right_comm, Nat.add_assoc] at hlater
  · rw [List.length_cons] at ha
    rw [hkept a (by omega), Memory.read_write_ne _ _ (by omega)]

theorem State.writeBytes_of_fits (bytes : List Byte) : ∀ (base : Nat) (s : State),
    bytes.length ≤ s.params.memSize - base →
    ∃ m, State.writeBytes bytes base s = .ok () (s.setMem m) ∧ Memory.Loaded bytes base s.mem m := by
  induction bytes with
  | nil => exact fun base s _ => ⟨s.mem, rfl, by simp [Memory.Loaded]⟩
  | cons b rest ih =>
    intro base s hin
    rw [List.length_cons] at hin
    obtain ⟨m, hwrite, hloaded⟩ := ih (base + 1) (s.setMem (Memory.write s.mem base b))
      (by rw [State.setMem_params]; omega)
    refine ⟨m, ?_, hloaded.cons⟩
    rw [State.writeBytes, s.memWrite8_of_fits base b (by omega), Result.andThen, hwrite]
    rfl

/-- The writes of a list are those of its beginning, then those of its end. -/
theorem State.writeBytes_append (first rest : List Byte) : ∀ (base : Nat) (s : State),
    State.writeBytes (first ++ rest) base s =
      (State.writeBytes first base s).andThen fun _ t => State.writeBytes rest (base + first.length) t := by
  induction first with
  | nil => intro base s; rfl
  | cons b first ih =>
    intro base s
    rw [List.cons_append, State.writeBytes, State.writeBytes]
    cases s.memWrite8 base b with
    | ok u t => simp only [Result.andThen, ih, List.length_cons, Nat.add_assoc, Nat.add_comm 1]
    | err e t => rfl

/-- How a load of which the first `k` bytes are in range and the next is not ends. -/
theorem State.loadBulk_ends {s : State} {bytes : List Byte} {base k : Nat}
    (hk : k = min bytes.length (s.params.memSize - base)) :
    ∃ m, Memory.Loaded (bytes.take k) base s.mem m ∧ State.loadBulk bytes base s =
      if k = bytes.length then .ok (bytes.length, bytes.length / 2) (s.setMem m)
      else .err (.memoryFault (base + k)) (s.setMem m) := by
  have hlength : (bytes.take k).length = k := by rw [List.length_take]; omega
  obtain ⟨m, hwrite, hloaded⟩ := State.writeBytes_of_fits (bytes.take k) base s (by omega)
  have hall := State.writeBytes_append (bytes.take k) (bytes.drop k) base s
  rw [List.take_append_drop, hwrite, hlength, Result.andThen] at hall
  refine ⟨m, hloaded, ?_⟩
  rw [State.loadBulk, hall]
  split
  · next hfull => rw [hfull, List.drop_length]; rfl
  · next hpart =>
    have hout : ¬ base + k < (s.setMem m).params.memSize := by rw [State.setMem_params]; omega
    rw [List.drop_eq_getElem_cons (by omega), State.writeBytes, State.memWrite8_of_not_fits _ _ _ hout]
    rfl

/-- Settles O17: the bytes in range are written, and the next one decides the failure. -/
theorem loadBulkWritesTheImage : Obligations.LoadBulkWritesTheImage := by
  intro s bytes base k hk
  obtain ⟨m, ⟨hwritten, hkept⟩, hload⟩ := State.loadBulk_ends hk
  have hlength : (bytes.take k).length = k := by rw [List.length_take]; omega
  rw [hlength] at hkept
  have hstate : (State.loadBulk bytes base s).state = s.setMem m := by
    rw [hload]
    split <;> rfl
  rw [hstate]
  refine ⟨rfl, s.sameControl_setMem m, fun i b hi hb => hwritten i b ?_, hkept, fun hall => ?_, fun hpart => ?_⟩
  · rwa [List.getElem?_take_of_lt hi]
  · exact ⟨_, by rw [hload, if_pos hall]⟩
  · exact ⟨_, by rw [hload, if_neg hpart.ne]⟩

end Sys2Proof.Machine
end

section
/-! The triples handler scripts reach (43_signal.md R162): a script that writes every byte, every register and the halt
flag. -/

namespace Sys2Proof.Machine

/-- The acts that give the listed registers their values in `x`. -/
def setRegsActs (x : Regs) (rs : List Reg) : List HandlerStep :=
  rs.map fun r => ⟨.setReg r (x.get r), true⟩

/-- The eight roles (10_state.md R22). -/
def allRegs : List Reg := [.a, .b, .c, .m, .sp, .pc, .bp, .flags]

/-- The acts that write the bytes of `m` at the listed addresses. -/
def writeBytesActs (m : Memory) (addrs : List Nat) : List HandlerStep :=
  addrs.map fun a => ⟨.writeByte (BitVec.ofNat 16 a) (Memory.read m a), true⟩

/-- The script that writes every byte of `m`, every register of `x` and the halt flag `b`, and reports `res`. -/
def tripleScript (size : Nat) (x : Regs) (m : Memory) (b : Bool) (res : Option Error) : HandlerScript :=
  ⟨writeBytesActs m (List.range size) ++ (⟨.setHalt b, true⟩ :: setRegsActs x allRegs), res⟩

theorem State.runActs_cons_of_ok {a : HandlerStep} {s t : State} (rest : List HandlerStep)
    (h : s.runAct a.act = .ok () t) : State.runActs (a :: rest) s = State.runActs rest t := by
  simp only [State.runActs, h]

theorem State.runActs_append {acts : List HandlerStep} {s t : State} (rest : List HandlerStep)
    (h : State.runActs acts s = .ok () t) : State.runActs (acts ++ rest) s = State.runActs rest t := by
  induction acts generalizing s with
  | nil =>
    cases h
    rfl
  | cons a acts ih =>
    rw [List.cons_append]
    cases hact : s.runAct a.act with
    | ok u t' =>
      rw [State.runActs_cons_of_ok _ hact] at h ⊢
      exact ih h
    | err e t' =>
      simp only [State.runActs, hact] at h ⊢
      split at h
      · cases h
      · next hpass => rw [if_neg hpass, ih h]

/-- The listed registers take their values, and the others are as before. -/
theorem State.runActs_setRegsActs (x : Regs) (rs : List Reg) : ∀ s : State,
    ∃ y : Regs, State.runActs (setRegsActs x rs) s = .ok () { s with regs := y } ∧
      ∀ r, y.get r = if r ∈ rs then x.get r else s.regs.get r := by
  induction rs with
  | nil => exact fun s => ⟨s.regs, rfl, fun r => by simp⟩
  | cons r rs ih =>
    intro s
    obtain ⟨y, hrun, hget⟩ := ih (s.writeReg r (x.get r))
    refine ⟨y, ?_, fun q => ?_⟩
    · exact (State.runActs_cons_of_ok (s := s) (setRegsActs x rs) rfl).trans hrun
    · rw [hget q, State.writeReg_regs, Regs.get_set]
      by_cases hq : q = r
      · simp [hq]
      · simp [hq]

theorem State.runActs_setRegsActs_allRegs (s : State) (x : Regs) :
    State.runActs (setRegsActs x allRegs) s = .ok () { s with regs := x } := by
  obtain ⟨y, hrun, hget⟩ := s.runActs_setRegsActs x allRegs
  have hall (r : Reg) : r ∈ allRegs := by cases r <;> decide
  have heq : y = x := Regs.ext_get fun r => by rw [hget r, if_pos (hall r)]
  rw [hrun, heq]

/-- The written bytes are read back, and the others are as before. -/
theorem State.runActs_writeBytesActs (m : Memory) (addrs : List Nat) : ∀ s : State, s.params.memSize ≤ 65536 →
    (∀ a ∈ addrs, a < s.params.memSize) →
    ∃ m', State.runActs (writeBytesActs m addrs) s = .ok () (s.setMem m') ∧
      ∀ a, Memory.read m' a = if a ∈ addrs then Memory.read m a else Memory.read s.mem a := by
  induction addrs with
  | nil => exact fun s _ _ => ⟨s.mem, rfl, fun a => by simp⟩
  | cons a addrs ih =>
    intro s hsize hin
    obtain ⟨ha, hrest⟩ := List.forall_mem_cons.mp hin
    have haddr : (BitVec.ofNat 16 a).toNat = a := by
      rw [BitVec.toNat_ofNat, Nat.mod_eq_of_lt (by omega)]
    obtain ⟨m', hrun, hread⟩ := ih (s.setMem (Memory.write s.mem a (Memory.read m a))) hsize hrest
    refine ⟨m', ?_, fun c => ?_⟩
    · have hact : s.runAct (.writeByte (BitVec.ofNat 16 a) (Memory.read m a)) =
          .ok () (s.setMem (Memory.write s.mem a (Memory.read m a))) := by
        rw [State.runAct, haddr, s.memWrite8_of_fits a _ ha]
      exact (State.runActs_cons_of_ok (writeBytesActs m addrs) hact).trans hrun
    · rw [hread c, State.setMem_mem, Memory.read_write]
      by_cases hc : c = a
      · simp [hc]
      · simp [hc]

/-- Written over all of memory, the bytes of a memory in canonical form leave just that memory. -/
theorem State.runActs_writeBytesActs_range {s : State} {m : Memory} (hs : s.MemInv) (hsize : s.params.memSize ≤ 65536)
    (hwf : Memory.wf m) (hwithin : Memory.within s.params.memSize m) :
    State.runActs (writeBytesActs m (List.range s.params.memSize)) s = .ok () (s.setMem m) := by
  obtain ⟨m', hrun, hread⟩ := s.runActs_writeBytesActs m (List.range s.params.memSize) hsize
    fun a ha => List.mem_range.mp ha
  have hkeeps := State.keeps_runActs (writeBytesActs m (List.range s.params.memSize)) s
  rw [hrun] at hkeeps
  obtain ⟨-, -, -, hmem⟩ := hkeeps
  obtain ⟨hwf', hwithin'⟩ : (s.setMem m').MemInv := hmem hs
  have hbeyond {n : Memory} {a : Nat} (hn : Memory.within s.params.memSize n) (ha : ¬ a < s.params.memSize) :
      Memory.read n a = 0 := Memory.read_absent fun c hc heq => ha (heq ▸ hn c hc)
  have heq : m' = m := Memory.ext_read hwf' hwf fun a => by
    by_cases ha : a < s.params.memSize
    · rw [hread, if_pos (List.mem_range.mpr ha)]
    · exact (hbeyond hwithin' ha).trans (hbeyond hwithin ha).symm
  rw [hrun, heq]

/-- Settles O25, by the script that writes all of memory, then the halt flag, then every register. -/
theorem handlerScriptsReachEveryTriple : Obligations.HandlerScriptsReachEveryTriple := by
  rintro s x m b res ⟨⟨hsize, -⟩, hmem, -⟩ hwf hwithin
  have hacts : State.runActs (tripleScript s.params.memSize x m b res).acts s =
      .ok () { s with regs := x, mem := m, halt := b } := by
    rw [tripleScript, State.runActs_append _ (State.runActs_writeBytesActs_range hmem hsize hwf hwithin),
      State.runActs_cons_of_ok (t := (s.setMem m).setHalt b) _ rfl, State.runActs_setRegsActs_allRegs]
    rfl
  refine ⟨tripleScript s.params.memSize x m b res, ?_⟩
  rw [State.runScript, hacts]
  cases res with
  | none => rfl
  | some e => rfl

end Sys2Proof.Machine
end

section
/-! The parameters at reset (00_scope.md R10 to R14, 70_reset_and_hazards.md R211) and the cause codes
(60_exceptions.md R187). -/

namespace Sys2Proof.Machine

/-- Settles O19: the values are those of the default parameters, and its table binds one code. -/
theorem resetTakesTheSpecsParameters : Obligations.ResetTakesTheSpecsParameters := by
  refine ⟨rfl, rfl, rfl, rfl, fun c => ?_, fun s => rfl⟩
  by_cases hc : c = 0x09
  · subst hc
    rfl
  · rw [if_neg hc]
    exact if_neg fun heq => hc heq.symm

theorem State.causeCode_of_err {s : State} {e : Error} (h : s.err = some e) : s.causeCode = errorCause e := by
  rw [State.causeCode, h]

/-- Every error has a code of its own kind, none of them zero. -/
theorem errorCause_ne_zero (e : Error) : errorCause e ≠ 0 := by cases e <;> simp [errorCause]

theorem State.causeCode_eq_zero_iff (s : State) : s.causeCode = 0 ↔ s.err = none := by
  cases h : s.err with
  | none => simp [State.causeCode, h]
  | some e => simp [State.causeCode_of_err h, errorCause_ne_zero]

/-- Settles O58: the code by the error's kind, and each payload fits in 17 bits. -/
theorem causeCodesFollowTheList : Obligations.CauseCodesFollowTheList := by
  have hbyte (b : Byte) : (b.setWidth 17).toNat = b.toNat := BitVec.toNat_setWidth_of_le (by decide)
  exact ⟨State.causeCode_eq_zero_iff, fun _ _ => State.causeCode_of_err,
    fun _ _ => ⟨State.causeCode_of_err, State.causeCode_of_err, State.causeCode_of_err⟩,
    fun _ => State.causeCode_of_err, fun a ha => (BitVec.toNat_ofNat _ _).trans (Nat.mod_eq_of_lt (by omega)),
    fun b => ⟨hbyte b, hbyte b, hbyte b⟩, rfl⟩

end Sys2Proof.Machine
end
